-- ==== Sys2Proof/Word.lean ====
section
/-! DEFINITION. The byte, the one addressable unit of every space (R16, R55), and three of them in stream order. -/

namespace Sys2Proof

/-- A byte: 8 bits, unsigned (R16). -/
abbrev Byte := BitVec 8

/-- Three bytes in stream order, `b0` first: the shape of `enc_out` and `dec_in` (R22, R23). -/
structure Triple where
  b0 : Byte
  b1 : Byte
  b2 : Byte
deriving DecidableEq, Repr

/-- The three bytes as a sequence, first byte first. -/
def Triple.toList (t : Triple) : List Byte := [t.b0, t.b1, t.b2]

end Sys2Proof
end

