-- ==== Sys2Proof/Config.lean ====
section
/-! DEFINITION. What the hardware instance fixes: the format parameters (R3 to R12), the open parameters (R13, R159), and
the one free value of the model, what a byte that nothing has written reads as (R45, U13). -/

namespace Sys2Proof

/-- The four byte spaces (R50). -/
inductive Space where
  | cin
  | cout
  | din
  | dout
deriving DecidableEq, Repr

namespace Config

/-- The four base parameters of the format, one immutable record (R11). -/
structure Format where
  /-- `ESC`, the escape marker (R3). -/
  esc : Byte
  /-- `PFB`, bytes of the pointer field without the marker (R4). -/
  pfb : Nat
  /-- `OB`, bits of the offset (R5). -/
  ob : Nat
  /-- `LB`, bits of the length (R6). -/
  lb : Nat
deriving DecidableEq, Repr

/-- `SM = PFB + 2` (R7). -/
def Format.shortestMatch (f : Format) : Nat := f.pfb + 2

/-- `LM = 2^LB + SM - 1` (R8). -/
def Format.longestMatch (f : Format) : Nat := 2 ^ f.lb + f.shortestMatch - 1

/-- `WSIZE = 2^OB` (R9). -/
def Format.windowSize (f : Format) : Nat := 2 ^ f.ob

/-- `MARGIN` (R10). -/
def margin : Nat := 10

/-- `BSIZE = LM + MARGIN` (R10). -/
def Format.bufferSize (f : Format) : Nat := f.longestMatch + margin

/-- The tuples the rules are claimed for (R12): the two fields fill the field bytes, and a pointer has three bytes. -/
def Format.supported (f : Format) : Bool := f.ob + f.lb == 8 * f.pfb && f.pfb == 2

/-- The one tuple this hardware takes (R11, R12). -/
def format : Format := { esc := 0xCC, pfb := 2, ob := 12, lb := 4 }

/-- `ESC` = 0xCC. -/
def esc : Byte := format.esc

/-- `PFB` = 2. -/
def pfb : Nat := format.pfb

/-- `OB` = 12. -/
def ob : Nat := format.ob

/-- `LB` = 4. -/
def lb : Nat := format.lb

/-- `SM` = 4. -/
def sm : Nat := format.shortestMatch

/-- `LM` = 19. -/
def lm : Nat := format.longestMatch

/-- `WSIZE` = 4096. -/
def wsize : Nat := format.windowSize

/-- `BSIZE` = 29. -/
def bsize : Nat := format.bufferSize

/-- `OVERLAP_POLICY` (R159): what a PTR with `length > offset + 1` does. -/
inductive OverlapPolicy where
  /-- The byte-by-byte loop's own result, the spec's default. -/
  | replicate
  /-- The stricter reading: fault with cause `ReferenceOutOfRange`. -/
  | fault
deriving DecidableEq, Repr

/-- The open parameters on which rules depend (R13): `none` is the default, unbounded. -/
structure Params where
  /-- `LEN_BITS`, the width of positions and lengths. -/
  lenBits : Option Nat
  /-- `OUT_CAP`, the capacity of `COUT` and of `DOUT`. -/
  outCap : Option Nat
  /-- `OVERLAP_POLICY`. -/
  overlap : OverlapPolicy
deriving DecidableEq, Repr

/-- The defaults the spec gives the open parameters (R13, R159). -/
def Params.default : Params := { lenBits := none, outCap := none, overlap := .replicate }

/-- A position or length that `LEN_BITS` can hold (R13). -/
def Params.posFits (p : Params) (n : Nat) : Bool :=
  match p.lenBits with
  | none => true
  | some k => n < 2 ^ k

/-- An output length that `OUT_CAP` can hold (R13). -/
def Params.capFits (p : Params) (n : Nat) : Bool :=
  match p.outCap with
  | none => true
  | some c => n ≤ c

/-- FREE VALUE (log entry 1): what a byte of a space reads as while nothing has written it: 'any value' (R45, U13). It has
no body, so no proof can know it. -/
opaque unwrittenByte : Space → Nat → Byte

end Config

end Sys2Proof
end

