-- ==== Sys2Proof/Syntax.lean ====
section
/-! DEFINITION. The instructions: the three tokens of the compressed stream, one constructor per row of opcode_table.json. -/

namespace Sys2Proof

/-- The tokens SDECOMP interprets (R70). -/
inductive Instr where
  /-- ESCLIT, format T3E: the bytes `CC 00 00`; one literal byte equal to the escape marker (R73, R154). -/
  | esclit
  /-- PTR, format T3P: `offset` is T[15:4], `lenbias` is T[3:0] = length - SM (R72, R156). -/
  | ptr (offset : BitVec 12) (lenbias : BitVec 4)
  /-- LIT, format T1: one literal byte (R71, R152). -/
  | lit (value : BitVec 8)
deriving DecidableEq, Repr

/-- The length of a token in bytes (R70, R76). -/
def Instr.length : Instr → Nat
  | .esclit => 3
  | .ptr _ _ => 3
  | .lit _ => 1

end Sys2Proof
end

