-- ==== Sys2Proof/WellFormed.lean ====
section
/-! DEFINITION. Which tokens the format has: a LIT is not the marker (R71), a PTR's field is not zero (R72, R79). -/

namespace Sys2Proof

/-- A token the format can write: `LIT CC` would be read as a marker (R74), `PTR 0,4` as ESCLIT (R79). -/
def Instr.wf : Instr → Bool
  | .esclit => true
  | .ptr offset lenbias => !(offset == 0 && lenbias == 0)
  | .lit value => value != Config.esc

end Sys2Proof
end

