-- ==== Sys2Proof/Decode.lean ====
section
/-! DEFINITION. The wire format: classification and operand fields of the token at the head of a byte sequence (R75, R77,
R81), total and refusing by name, and the encoder written from the same formats (R71 to R73). -/

namespace Sys2Proof

/-- Why no token stands at the head of a byte sequence. -/
inductive DecodeError where
  /-- There is no byte at all: classification is defined only for `c < N` (R75). -/
  | noToken
  /-- The marker with fewer than two bytes after it (R75, R157). -/
  | truncatedInput
deriving DecidableEq, Repr

/-- The pointer field `F`, big-endian: the byte that comes first is F[15:8] (R56). -/
def pointerField (b1 b2 : Byte) : BitVec 16 := b1 ++ b2

/-- `offset = F[15:4]` (R72, R77). -/
def fieldOffset (f : BitVec 16) : BitVec 12 := f.extractLsb' 4 12

/-- `lenbias = F[3:0]` (R72, R77). -/
def fieldLenbias (f : BitVec 16) : BitVec 4 := f.extractLsb' 0 4

/-- The token at the head of a sequence, and what follows it: the cases of R75 in the order R75 gives them, so that
`CC 00 00` is ESCLIT and never a pointer (R79, R155). -/
def decode : List Byte → Except DecodeError (Instr × List Byte)
  | [] => .error .noToken
  | b0 :: rest =>
    if b0 ≠ Config.esc then .ok (.lit b0, rest)
    else
      match rest with
      | b1 :: b2 :: rest' =>
        if b1 = 0 ∧ b2 = 0 then .ok (.esclit, rest')
        else .ok (.ptr (fieldOffset (pointerField b1 b2)) (fieldLenbias (pointerField b1 b2)), rest')
      | _ => .error .truncatedInput

/-- The bytes of a token, first stream byte first (R71, R72, R73). -/
def encode : Instr → List Byte
  | .esclit => [Config.esc, 0x00, 0x00]
  | .ptr offset lenbias =>
    let f : BitVec 16 := offset ++ lenbias
    [Config.esc, f.extractLsb' 8 8, f.extractLsb' 0 8]
  | .lit value => [value]

/-- A table word's bytes as the stream holds them: the table numbers a 24-bit token with its FIRST stream byte at bits 23:16
(R72, R81, opcode_table.json 'byte_order'; log entry 9). Bytes above `nbits`, up to three in all, are zero. -/
def tableBytes (nbits w : Nat) : List Byte :=
  let n := (nbits + 7) / 8
  (List.range n).map (fun k => BitVec.ofNat 8 (w / 2 ^ (8 * (n - 1 - k)))) ++ List.replicate (3 - n) 0

/-- The instruction the decoder reads from a table word. -/
def decodeTableWord (nbits w : Nat) : Option Instr :=
  match decode (tableBytes nbits w) with
  | .ok (i, _) => some i
  | .error _ => none

end Sys2Proof
end

