-- ==== Sys2Proof/Machine/State.lean ====
section
/-! DEFINITION. The state of CORE as plain data: the open parameters, the host's side of the interface, SCOMP and SDECOMP
(10_state.md), and its value after reset (R45). -/

namespace Sys2Proof.Machine

/-- One byte space: the bytes written so far, by address, addresses strictly rising (`Memory.wf`). -/
abbrev Memory := List Host.Cell

/-- An engine's status, two bits to the host (R34, R37; the codes are `Status.code`). -/
inductive Status where
  | idle
  | busy
  | done
  | fault
deriving DecidableEq, Repr

/-- A fault cause, three bits to the host (R176; the codes are `Cause.code`). Codes 5 to 7 are never produced, so the type has
no constructor for them (U15). -/
inductive Cause where
  | none
  /-- Raised by ENCODE (R91). -/
  | invalidParameters
  /-- Raised by DECODE (R95). -/
  | malformedPointer
  /-- Raised by a step of SDECOMP (R157). -/
  | truncatedInput
  /-- Raised by a PTR token (R158). -/
  | referenceOutOfRange
deriving DecidableEq, Repr

/-- What stops the machine with a fault: nothing. Every fault the spec names is TAKEN, as a next state with the cause and the
status written (R180), or shown on a port (R183); so the type has no constructor. DEDUCED, safe (log entry 15). -/
inductive Fault where
deriving DecidableEq, Repr

/-- Why the model gives a step or a host move no meaning. -/
inductive Refusal where
  /-- Raised by `exec` for an instruction that has no meaning yet; no arm does. Safe. -/
  | notModelled (mnemonic : String)
  /-- Raised by an engine's step that would make `COUT` or `DOUT` longer than `OUT_CAP` (R13, U9; log entry 11). Safe. -/
  | outCapExceeded
  /-- Raised by an engine's step or a host move that would make a position or length not fit `LEN_BITS` (R13, U9). Safe. -/
  | lenBitsExceeded
  /-- Raised by a host move that changes an input space or its length while its engine is BUSY: the spec gives such a run no
  meaning (R207, U8). Safe. -/
  | inputChangedWhileBusy
  /-- Raised by a host move that drives PCODEC's ports while an engine is BUSY (R208, U11). Safe. -/
  | portsDrivenWhileBusy
deriving DecidableEq, Repr

/-- What the host owns and drives: no step of CORE writes it but for the strobes, which last one boundary (R40, R41). -/
structure HostSide where
  /-- The reset input, active high (R200). -/
  rst : Bool
  /-- The compress strobe (R40). -/
  compStart : Bool
  /-- The decompress strobe (R41). -/
  decompStart : Bool
  /-- `CIN`, the compressor's input (R50). -/
  cin : Memory
  /-- `cin_len` (R40). -/
  cinLen : Nat
  /-- `DIN`, the compressed stream to interpret (R50, R53). -/
  din : Memory
  /-- `din_len` (R41). -/
  dinLen : Nat
  /-- `enc_offset` (R22). -/
  encOffset : BitVec 16
  /-- `enc_length` (R22). -/
  encLength : BitVec 8
  /-- `dec_in` (R23). -/
  decIn : Triple
  /-- `dec_count` (R23). -/
  decCount : BitVec 2
deriving DecidableEq, Repr

/-- SCOMP's state. -/
structure Scomp where
  /-- `W`, the sliding window, oldest byte first (R26). -/
  w : List Byte
  /-- `B`, the read-ahead buffer, front first (R29). -/
  b : List Byte
  /-- `rd` (R31). -/
  rd : Nat
  /-- `COUT` (R33). -/
  cout : Memory
  /-- `cout_len` (R33). -/
  coutLen : Nat
  /-- `comp_st` (R34). -/
  st : Status
  /-- `comp_cause` (R34). -/
  cause : Cause
deriving DecidableEq, Repr

/-- SDECOMP's state. -/
structure Sdecomp where
  /-- `cur`, the program counter of this hardware (R35). -/
  cur : Nat
  /-- `DOUT`, output and history in one (R36). -/
  dout : Memory
  /-- `dout_len` (R36). -/
  doutLen : Nat
  /-- `decomp_st` (R37). -/
  st : Status
  /-- `decomp_cause` (R37). -/
  cause : Cause
deriving DecidableEq, Repr

/-- The whole machine. `params` is constant for the life of a machine (R13); PCODEC and MFIND hold no state (R21, R25). -/
structure State where
  params : Config.Params
  host : HostSide
  comp : Scomp
  decomp : Sdecomp
deriving DecidableEq, Repr

/-- What a step and a host move answer. -/
abbrev Result := Host.Outcome State Fault Refusal

/-- SCOMP after reset (R45). -/
def Scomp.reset : Scomp :=
  { w := [], b := [], rd := 0, cout := [], coutLen := 0, st := .idle, cause := .none }

/-- SDECOMP after reset (R45). -/
def Sdecomp.reset : Sdecomp :=
  { cur := 0, dout := [], doutLen := 0, st := .idle, cause := .none }

/-- The host's side when nothing has been driven: the spec leaves it unspecified (R45); DESIGN CHOICE: all zero, nothing
written (log entry 2). -/
def HostSide.initial : HostSide :=
  { rst := false, compStart := false, decompStart := false
    cin := [], cinLen := 0, din := [], dinLen := 0
    encOffset := 0, encLength := 0, decIn := { b0 := 0, b1 := 0, b2 := 0 }, decCount := 0 }

/-- The machine right after reset (R45, R200), the host having driven nothing. -/
def State.reset : State :=
  { params := Config.Params.default, host := HostSide.initial, comp := Scomp.reset, decomp := Sdecomp.reset }

end Sys2Proof.Machine
end

