-- ==== Sys2Proof/Machine/Ops.lean ====
section
/-! DEFINITION. The named operations: reading and writing a byte space (R18, R50), `Append` (R52, R54), `Push`, `PopFront` and
`Refill` (R27, R30), fault entry, the one way a fault is taken (R180), reset (R200), and the bounds of R13. -/

namespace Sys2Proof.Machine

/-! ### Byte spaces -/

/-- The canonical form: addresses strictly rising, so each address is listed at most once. A byte written stays listed, since
what an unlisted address reads as is a free value no byte is known to equal (log entry 1). -/
def Memory.wf : Memory → Bool
  | [] => true
  | cell :: rest => rest.all (fun other => decide (cell.1 < other.1)) && Memory.wf rest

/-- The byte written at an address, if any was. -/
def Memory.read : Memory → Nat → Option Byte
  | [], _ => none
  | cell :: rest, a => if cell.1 = a then some cell.2 else Memory.read rest a

/-- `m` with byte `v` at address `a`. -/
def Memory.write : Memory → Nat → Byte → Memory
  | [], a, v => [(a, v)]
  | cell :: rest, a, v =>
    if a < cell.1 then (a, v) :: cell :: rest
    else if a = cell.1 then (a, v) :: rest
    else cell :: Memory.write rest a v

/-- `MemWrite(S[a], |bs|, bs)`: single bytes in rising position order (R18, R59). -/
def Memory.writeBytes : Memory → Nat → List Byte → Memory
  | m, _, [] => m
  | m, a, v :: rest => Memory.writeBytes (Memory.write m a v) (a + 1) rest

/-- What a position of a space reads as: the byte written there, or, while nothing has written it, any value (U13;
log entry 1). -/
def Memory.byteAt (sp : Space) (m : Memory) (a : Nat) : Byte :=
  (Memory.read m a).getD (Config.unwrittenByte sp a)

/-- `MemRead(S[a], n)` (R18). -/
def Memory.readBytes (sp : Space) (m : Memory) : Nat → Nat → List Byte
  | _, 0 => []
  | a, n + 1 => Memory.byteAt sp m a :: Memory.readBytes sp m (a + 1) n

/-- The input of a compress, `CIN[0 : cin_len]`. -/
def HostSide.cinBytes (h : HostSide) : List Byte := Memory.readBytes .cin h.cin 0 h.cinLen

/-- The stream of a decompress, `DIN[0 : din_len]`. -/
def HostSide.dinBytes (h : HostSide) : List Byte := Memory.readBytes .din h.din 0 h.dinLen

/-- `COUT[0 : cout_len]`. -/
def Scomp.coutBytes (c : Scomp) : List Byte := Memory.readBytes .cout c.cout 0 c.coutLen

/-- `DOUT[0 : dout_len]`. -/
def Sdecomp.doutBytes (d : Sdecomp) : List Byte := Memory.readBytes .dout d.dout 0 d.doutLen

/-! ### SDECOMP -/

/-- `Append(DOUT, bs)` (R18, R54). -/
def Sdecomp.append (d : Sdecomp) (bs : List Byte) : Sdecomp :=
  { d with dout := Memory.writeBytes d.dout d.doutLen bs, doutLen := d.doutLen + bs.length }

/-- One byte of the history (R54). -/
def Sdecomp.readDout (d : Sdecomp) (a : Nat) : Byte := Memory.byteAt .dout d.dout a

/-- The PTR copy: `n` times, read one byte at the source position and append it; each read sees what the reads before it
appended (R156, R209). -/
def Sdecomp.copyBack (d : Sdecomp) : Nat → Nat → Sdecomp
  | 0, _ => d
  | n + 1, src => (d.append [d.readDout src]).copyBack n (src + 1)

/-- `cur <- cur + n`. -/
def Sdecomp.advance (d : Sdecomp) (n : Nat) : Sdecomp := { d with cur := d.cur + n }

/-! ### SCOMP -/

/-- `Append(COUT, bs)` (R18, R52). -/
def Scomp.append (c : Scomp) (bs : List Byte) : Scomp :=
  { c with cout := Memory.writeBytes c.cout c.coutLen bs, coutLen := c.coutLen + bs.length }

/-- `Push(W, b)` on the window: evict the oldest entry when full (R27). -/
def windowPush (w : List Byte) (v : Byte) : List Byte :=
  (if w.length = Config.wsize then w.drop 1 else w) ++ [v]

/-- `Push(W, b)` (R27). -/
def Scomp.push (c : Scomp) (v : Byte) : Scomp := { c with w := windowPush c.w v }

/-- `PopFront(B)`, defined only when `B` holds a byte (R30). -/
def Scomp.popFront (c : Scomp) : Option (Byte × Scomp) :=
  match c.b with
  | [] => none
  | v :: rest => some (v, { c with b := rest })

/-- `Refill(n)`: up to `n` bytes from the unread input tail (R30). -/
def Scomp.refill (h : HostSide) (n : Nat) (c : Scomp) : Scomp :=
  let k := min n (h.cinLen - c.rd)
  { c with b := c.b ++ Memory.readBytes .cin h.cin c.rd k, rd := c.rd + k }

/-- Move `n` bytes from the front of `B` into `W` (R132). -/
def Scomp.moveFront : Nat → Scomp → Scomp
  | 0, c => c
  | n + 1, c =>
    match c.popFront with
    | none => c
    | some (v, c') => Scomp.moveFront n (c'.push v)

/-- The consumed count `p = rd - |B|` (R32). -/
def Scomp.consumed (c : Scomp) : Nat := c.rd - c.b.length

/-! ### Status, fault entry, reset -/

/-- Either engine is BUSY (R40). -/
def State.busy (s : State) : Bool := s.comp.st == .busy || s.decomp.st == .busy

/-- Fault entry in SDECOMP: cause and status, and nothing else (R180); `cur` keeps the start of the token (R181). There is no
handler and no return: only a new start or reset clears it (R184). -/
def State.raiseDecomp (s : State) (c : Cause) : State :=
  { s with decomp := { s.decomp with cause := c, st := .fault } }

/-- Fault entry in SCOMP (R180). -/
def State.raiseComp (s : State) (c : Cause) : State :=
  { s with comp := { s.comp with cause := c, st := .fault } }

/-- Write back SDECOMP's state, or refuse what `OUT_CAP` or `LEN_BITS` cannot hold: never a wrap (R13, U9). DESIGN CHOICE, safe:
the step that would pass a bound is the one refused (log entry 11). -/
def State.commitDecomp (s : State) (d : Sdecomp) : Result :=
  if s.params.capFits d.doutLen then
    if s.params.posFits d.doutLen && s.params.posFits d.cur then .next { s with decomp := d }
    else .refused .lenBitsExceeded
  else .refused .outCapExceeded

/-- Write back SCOMP's state, or refuse what `OUT_CAP` or `LEN_BITS` cannot hold (R13, U9). -/
def State.commitComp (s : State) (c : Scomp) : Result :=
  if s.params.capFits c.coutLen then
    if s.params.posFits c.coutLen && s.params.posFits c.rd then .next { s with comp := c }
    else .refused .lenBitsExceeded
  else .refused .outCapExceeded

/-- The strobes after the boundary that sampled them: a pulse lasts one boundary (R40, R41). DEDUCED, safe
(log entry 4). -/
def State.dropStrobes (s : State) : State :=
  { s with host := { s.host with compStart := false, decompStart := false } }

/-- `rst` sampled asserted: every piece of CORE's state to its reset value (R200); what the host owns stays (R202), and starts
asserted meanwhile are ignored. -/
def State.applyReset (s : State) : State :=
  { s.dropStrobes with comp := Scomp.reset, decomp := Sdecomp.reset }

/-- Apply `f` to the next state, if there is one. -/
def mapNext (f : State → State) : Result → Result
  | .next t => .next (f t)
  | .fault r => .fault r
  | .refused r => .refused r

end Sys2Proof.Machine
end

