-- ==== Sys2Proof/Machine/Pcodec.lean ====
section
/-! DEFINITION. PCODEC: ENCODE (R90), DECODE (R94) and the four accessors (R99), pure functions; and the ports the host sees
(R22, R23, R24). -/

namespace Sys2Proof.Machine

/-- A back-reference `(offset, length)`, the logical pointer (90_conflicts.md C4). -/
structure BackRef where
  offset : Nat
  length : Nat
deriving DecidableEq, Repr

/-- `F = offset * 2^LB + (length - SM)` (R90). -/
def packField (r : BackRef) : Nat := r.offset * 2 ^ Config.lb + (r.length - Config.sm)

/-- ENCODE (R90): out-of-range operands raise `InvalidParameters`, one fault whichever bound is violated (R91). -/
def pcodecEncode (r : BackRef) : Except Cause Triple :=
  if r.offset < 2 ^ Config.ob then
    if Config.sm ≤ r.length ∧ r.length ≤ Config.lm then
      .ok { b0 := Config.esc, b1 := BitVec.ofNat 8 (packField r / 256), b2 := BitVec.ofNat 8 (packField r % 256) }
    else .error .invalidParameters
  else .error .invalidParameters

/-- DECODE (R94): `count` bytes of `d` are valid; the first byte is not examined (R96). -/
def pcodecDecode (d : Triple) (count : Nat) : Except Cause BackRef :=
  if count < Config.pfb + 1 then .error .malformedPointer
  else
    let f := d.b1.toNat * 256 + d.b2.toNat
    .ok { offset := f / 2 ^ Config.lb, length := f % 2 ^ Config.lb + Config.sm }

/-- `acc_wsize`, 13 bits (R24). -/
def accWsize : BitVec 13 := BitVec.ofNat 13 Config.wsize

/-- `acc_bsize`, 5 bits (R24). -/
def accBsize : BitVec 5 := BitVec.ofNat 5 Config.bsize

/-- `acc_lm`, 5 bits (R24). -/
def accLm : BitVec 5 := BitVec.ofNat 5 Config.lm

/-- `acc_sm`, 3 bits (R24). -/
def accSm : BitVec 3 := BitVec.ofNat 3 Config.sm

end Sys2Proof.Machine
end

