-- ==== Sys2Proof/Machine/Mfind.lean ====
section
/-! DEFINITION. MFIND: the match finder FIND (R110), a function of the window and the read-ahead buffer. -/

namespace Sys2Proof.Machine

/-- The length of the common run of two sequences, at most `limit`: it stops at the first mismatch or at either end (R113). -/
def commonRun : Nat → List Byte → List Byte → Nat
  | 0, _, _ => 0
  | _ + 1, [], _ => 0
  | _ + 1, _ :: _, [] => 0
  | limit + 1, x :: xs, y :: ys => if x = y then commonRun limit xs ys + 1 else 0

/-- `run(i)` (R113): the window from `i` to its boundary against the buffer, at most `LM` bytes; it never reads past the last
byte of the window (R114). -/
def matchRun (w b : List Byte) (i : Nat) : Nat := commonRun Config.lm (w.drop i) b

/-- A position is a candidate when its byte equals the buffer's first byte (R112). -/
def isCandidate (w b : List Byte) (i : Nat) : Bool :=
  match w[i]?, b[0]? with
  | some x, some y => x == y
  | _, _ => false

/-- Candidates `k - 1` down to `0`: the most recent first, the first run of at least `SM` accepted at once (R111, R115). -/
def findBelow (w b : List Byte) : Nat → Option BackRef
  | 0 => none
  | i + 1 =>
    if isCandidate w b i && decide (Config.sm ≤ matchRun w b i) then
      some { offset := w.length - 1 - i, length := matchRun w b i }
    else findBelow w b i

/-- FIND (R110): `none` is NoMatch. With an empty buffer no position is a candidate (R117). -/
def find (w b : List Byte) : Option BackRef := findBelow w b w.length

end Sys2Proof.Machine
end

