-- ==== Sys2Proof/Machine/Scomp.lean ====
section
/-! DEFINITION. SCOMP: the accepted start (R126), one step (R128) with its two branches, the literal step (R129 to R131) and the
match step (R132), and termination (R134). -/

namespace Sys2Proof.Machine

/-- EmitLIT or EmitESCLIT: the test is made on every literal byte (R130, R131). -/
def Scomp.emitLiteral (c : Scomp) (v : Byte) : Scomp :=
  if v = Config.esc then c.append [Config.esc, 0x00, 0x00] else c.append [v]

/-- LiteralStep (R129). With an empty buffer no step is taken (R127). -/
def Scomp.literalStep (h : HostSide) (c : Scomp) : Scomp :=
  match c.popFront with
  | none => c
  | some (v, c') => ((c'.push v).emitLiteral v).refill h 1

/-- MatchStep (R132): ENCODE, append, move `length` bytes into the window, refill as many. An ENCODE fault is passed on (R133). -/
def Scomp.matchStep (h : HostSide) (r : BackRef) (c : Scomp) : Except Cause Scomp :=
  match pcodecEncode r with
  | .error e => .error e
  | .ok t => .ok (((c.append t.toList).moveFront r.length).refill h r.length)

/-- One step (R128): FIND on `W` and `B` as they are, then one branch. A fault of ENCODE performs none of the step's writes and
enters FAULT (R133, R180). -/
def compToken (s : State) : Result :=
  match find s.comp.w s.comp.b with
  | none => s.commitComp (s.comp.literalStep s.host)
  | some r =>
    match s.comp.matchStep s.host r with
    | .error e => .next (s.raiseComp e)
    | .ok c => s.commitComp c

/-- The loop condition of COMPRESS: `B` holds a byte (R127). -/
def State.compMore (s : State) : Bool := !s.comp.b.isEmpty

/-- Set DONE when the buffer is empty at the boundary after a step (R134). -/
def State.settleComp (s : State) : State :=
  if s.comp.st == .busy && !s.compMore then { s with comp := { s.comp with st := .done } } else s

/-- What a BUSY SCOMP does up to the next boundary: one step while `B` holds a byte, then the termination test (R125, R134). -/
def compAdvance (s : State) : Result :=
  if s.compMore then mapNext State.settleComp (compToken s) else .next s.settleComp

/-- An accepted `comp_start`: empty window, buffer pre-filled from `CIN` (R126). -/
def acceptComp (s : State) : Result :=
  let k := min Config.bsize s.host.cinLen
  s.commitComp
    { w := [], b := Memory.readBytes .cin s.host.cin 0 k, rd := k, cout := [], coutLen := 0, st := .busy, cause := .none }

end Sys2Proof.Machine
end

