-- ==== Sys2Proof/Machine/Operands.lean ====
section
/-! DEFINITION. Operand assembly of the one token that has operands to assemble, PTR (R77), and its one addressing mode, the
effective positions of the copy (R168). -/

namespace Sys2Proof.Machine

/-- The offset operand: unsigned, used as is, 0 to 4095 (R77). -/
def ptrOffset (offset : BitVec 12) : Nat := offset.toNat

/-- The length operand: the field holds `length - SM` (R77). -/
def ptrLength (lenbias : BitVec 4) : Nat := lenbias.toNat + Config.sm

/-- The copy would start before position 0 of `DOUT` (R158). -/
def ptrOutOfRange (offset : BitVec 12) (len0 : Nat) : Bool := decide (len0 < ptrOffset offset + 1)

/-- The source range runs into bytes this token appends (R159). -/
def ptrOverlaps (offset : BitVec 12) (lenbias : BitVec 4) : Bool :=
  decide (ptrOffset offset + 1 < ptrLength lenbias)

/-- `start = len0 - offset - 1`, meaningful when the reference is in range (R156). -/
def ptrStart (offset : BitVec 12) (len0 : Nat) : Nat := len0 - ptrOffset offset - 1

end Sys2Proof.Machine
end

