-- ==== Sys2Proof/Machine/Tokens.lean ====
section
/-! DEFINITION. The meanings of the three tokens (R152, R154, R156). -/

namespace Sys2Proof.Machine

/-- ESCLIT (R154): append one byte equal to the escape marker; `cur` advances by 3. -/
def execEsclit (s : State) : Result :=
  s.commitDecomp ((s.decomp.append [Config.esc]).advance 3)

/-- PTR (R156): the reference check first (R158, R161), then the overlap policy (R159), then the byte-by-byte copy from
`start`, computed once from the length before the token (R209); `cur` advances by 3. -/
def execPtr (offset : BitVec 12) (lenbias : BitVec 4) (s : State) : Result :=
  if ptrOutOfRange offset s.decomp.doutLen then .next (s.raiseDecomp .referenceOutOfRange)
  else if s.params.overlap == .fault && ptrOverlaps offset lenbias then .next (s.raiseDecomp .referenceOutOfRange)
  else s.commitDecomp ((s.decomp.copyBack (ptrLength lenbias) (ptrStart offset s.decomp.doutLen)).advance 3)

/-- LIT (R152): append the byte; `cur` advances by 1. -/
def execLit (value : BitVec 8) (s : State) : Result :=
  s.commitDecomp ((s.decomp.append [value]).advance 1)

end Sys2Proof.Machine
end

