-- ==== Sys2Proof/Machine/Dispatch.lean ====
section
/-! DEFINITION. One arm per constructor of Instr. -/

namespace Sys2Proof.Machine

def exec (i : Instr) (s : State) : Host.Outcome State Fault Refusal :=
  match i with
  | .esclit => Sys2Proof.Machine.execEsclit s
  | .ptr offset lenbias => Sys2Proof.Machine.execPtr offset lenbias s
  | .lit value => Sys2Proof.Machine.execLit value s

end Sys2Proof.Machine
end

