-- ==== Sys2Proof/Machine/Sdecomp.lean ====
section
/-! DEFINITION. SDECOMP: the accepted start (R150), token fetch, one step (R151), termination (R160). -/

namespace Sys2Proof.Machine

/-- The bytes of `DIN` a fetch may read: from `cur`, at most three, none at or beyond `din_len` (R53, R151). -/
def State.fetchBytes (s : State) : List Byte :=
  Memory.readBytes .din s.host.din s.decomp.cur (min 3 (s.host.dinLen - s.decomp.cur))

/-- The loop condition of DECOMPRESS: `cur < din_len` (R150). -/
def State.decompMore (s : State) : Bool := decide (s.decomp.cur < s.host.dinLen)

/-- Set DONE when the cursor has reached the end of the input at the boundary after a token (R160). -/
def State.settleDecomp (s : State) : State :=
  if s.decomp.st == .busy && !s.decompMore then { s with decomp := { s.decomp with st := .done } } else s

/-- One step (R151): fetch, classify, execute. The marker with fewer than three bytes left raises `TruncatedInput` before any
write (R157). -/
def decompToken (s : State) : Result :=
  match decode s.fetchBytes with
  | .ok (i, _) => exec i s
  | .error _ => .next (s.raiseDecomp .truncatedInput)

/-- What a BUSY SDECOMP does up to the next boundary: one token while `cur < din_len`, then the termination test (R150, R160). -/
def decompAdvance (s : State) : Result :=
  if s.decompMore then mapNext State.settleDecomp (decompToken s) else .next s.settleDecomp

/-- An accepted `decomp_start`: fresh state whatever it was (R44, R150). -/
def acceptDecomp (s : State) : Result :=
  s.commitDecomp { cur := 0, dout := [], doutLen := 0, st := .busy, cause := .none }

end Sys2Proof.Machine
end

