-- ==== Sys2Proof/Machine/Boundary.lean ====
section
/-! DEFINITION. What happens at one step boundary of the clock: reset, an accepted start, or the BUSY engine's step (R40, R41,
R200, D1); and the placing of one instruction where SDECOMP fetches next. -/

namespace Sys2Proof.Machine

/-- The BUSY engine moves; at most one is BUSY (R40). DESIGN CHOICE for a state no run reaches: were both BUSY, SCOMP moves
(log entry 7). -/
def engineAdvance (s : State) : Result :=
  if s.comp.st = .busy then compAdvance s else decompAdvance s

/-- One step boundary (log entry 6). Reset goes before all (R200). While an engine is BUSY a start is ignored (R40, R206). With
neither BUSY a start is accepted, `comp_start` before `decomp_start` (R41). Otherwise nothing changes (R43). -/
def stepBoundary (s : State) : Result :=
  if s.host.rst then .next s.applyReset
  else if s.busy then engineAdvance s.dropStrobes
  else if s.host.compStart then acceptComp s.dropStrobes
  else if s.host.decompStart then acceptDecomp s.dropStrobes
  else .next s

/-- `s` with the bytes `bs` at `cur` in `DIN` and SDECOMP running, so that the next step interprets the token they begin. -/
def State.placeToken (s : State) (bs : List Byte) : State :=
  { s with
    host := { s.host with
      rst := false
      din := Memory.writeBytes s.host.din s.decomp.cur bs
      dinLen := max s.host.dinLen (s.decomp.cur + bs.length) }
    comp := { s.comp with st := if s.comp.st = .busy then .idle else s.comp.st }
    decomp := { s.decomp with st := .busy, cause := .none } }

end Sys2Proof.Machine
end

