-- ==== Sys2Proof/Machine/Step.lean ====
section
/-! DEFINITION. The one step of the machine, and an instruction placed where it fetches next. -/

namespace Sys2Proof.Machine

/-- One step: one step boundary of CORE (R39, D1). -/
def step (s : State) : Host.Outcome State Fault Refusal := stepBoundary s

/-- `s` with the instruction of a table word placed where the next step fetches it (log entries 8 and 9). -/
def State.withFetchWord (s : State) (nbits w : Nat) : State := s.placeToken (tableBytes nbits w)

end Sys2Proof.Machine
end

