-- ==== Sys2Proof/Machine/Flags.lean ====
section
/-! DEFINITION. The flag-like outputs, the only ones there are (R38): `enc_fault`, `dec_fault` and `mf_found` with the results
they qualify, and the codes of status and cause (R34, R37, R176). A result the spec gives no value is absent (log
entry 5). -/

namespace Sys2Proof.Machine

/-- The two-bit status code (R34). -/
def Status.code : Status → BitVec 2
  | .idle => 0
  | .busy => 1
  | .done => 2
  | .fault => 3

/-- The three-bit cause code (R176). -/
def Cause.code : Cause → BitVec 3
  | .none => 0
  | .invalidParameters => 1
  | .malformedPointer => 2
  | .truncatedInput => 3
  | .referenceOutOfRange => 4

/-- What ENCODE answers for the encode ports (R22). -/
def State.encAnswer (s : State) : Except Cause Triple :=
  pcodecEncode { offset := s.host.encOffset.toNat, length := s.host.encLength.toNat }

/-- `enc_fault` (R22). -/
def State.encFault (s : State) : Bool := !s.encAnswer.isOk

/-- `enc_out`; on a fault it has no value (R92). -/
def State.encOut (s : State) : Option Triple := s.encAnswer.toOption

/-- What DECODE answers for the decode ports (R23). -/
def State.decAnswer (s : State) : Except Cause BackRef :=
  pcodecDecode s.host.decIn s.host.decCount.toNat

/-- `dec_fault` (R23). -/
def State.decFault (s : State) : Bool := !s.decAnswer.isOk

/-- `dec_offset`, 12 bits; on a fault it has no value (R95). -/
def State.decOffset (s : State) : Option (BitVec 12) := s.decAnswer.toOption.map (fun r => BitVec.ofNat 12 r.offset)

/-- `dec_length`, 5 bits; on a fault it has no value (R95). -/
def State.decLength (s : State) : Option (BitVec 5) := s.decAnswer.toOption.map (fun r => BitVec.ofNat 5 r.length)

/-- What the FIND of the step that begins here answers; between FINDs the outputs have no value (R25, R45): none where no FIND
follows, with `rst` asserted (R200) or SCOMP making no step. DESIGN CHOICE: the answer stands at the boundary its step begins at,
also where that step is refused for a bound (log entry 16). -/
def State.mfAnswer (s : State) : Option (Option BackRef) :=
  if !s.host.rst && s.comp.st == .busy && !s.comp.b.isEmpty then some (find s.comp.w s.comp.b) else none

/-- `mf_found` (R25). -/
def State.mfFound (s : State) : Option Bool := s.mfAnswer.map Option.isSome

/-- `mf_offset`, 12 bits; no value without a match (R25, U12). -/
def State.mfOffset (s : State) : Option (BitVec 12) := s.mfAnswer.join.map (fun r => BitVec.ofNat 12 r.offset)

/-- `mf_length`, 5 bits; no value without a match (R25, U12). -/
def State.mfLength (s : State) : Option (BitVec 5) := s.mfAnswer.join.map (fun r => BitVec.ofNat 5 r.length)

end Sys2Proof.Machine
end

