-- ==== Sys2Proof/Machine/HostMoves.lean ====
section
/-! DEFINITION. The host's moves and reads (R219): everything the outside world can do to CORE between two step boundaries.
A move the spec forbids is refused by name; a read to which the spec gives no value answers none
(log entries 5, 12 and 14). -/

namespace Sys2Proof.Machine

/-- What the host may do between two boundaries (R204, R219). -/
inductive HostMove where
  /-- Drive the reset input (R200). -/
  | driveRst (level : Bool)
  /-- Assert `comp_start` for the next boundary (R40). -/
  | assertCompStart
  /-- Assert `decomp_start` for the next boundary (R41). -/
  | assertDecompStart
  /-- Write one byte of `CIN` (R204). -/
  | writeCin (a : Nat) (v : Byte)
  /-- Set `cin_len` (R204). -/
  | setCinLen (n : Nat)
  /-- Write one byte of `DIN` (R204). -/
  | writeDin (a : Nat) (v : Byte)
  /-- Set `din_len` (R204). -/
  | setDinLen (n : Nat)
  /-- Drive the encode ports (R22, R101). -/
  | driveEncode (offset : BitVec 16) (length : BitVec 8)
  /-- Drive the decode ports (R23, R101). -/
  | driveDecode (bytes : Triple) (count : BitVec 2)
deriving DecidableEq, Repr

/-- Write to `CIN` or `cin_len`, refused while SCOMP is BUSY (R207). -/
def State.changeCompInput (s : State) (h : HostSide) : Result :=
  if s.comp.st = .busy then .refused .inputChangedWhileBusy
  else if s.params.posFits h.cinLen then .next { s with host := h }
  else .refused .lenBitsExceeded

/-- Write to `DIN` or `din_len`, refused while SDECOMP is BUSY (R207). -/
def State.changeDecompInput (s : State) (h : HostSide) : Result :=
  if s.decomp.st = .busy then .refused .inputChangedWhileBusy
  else if s.params.posFits h.dinLen then .next { s with host := h }
  else .refused .lenBitsExceeded

/-- Drive PCODEC's ports, refused while either engine is BUSY (R208). -/
def State.drivePorts (s : State) (h : HostSide) : Result :=
  if s.busy then .refused .portsDrivenWhileBusy else .next { s with host := h }

/-- The effect of a host move (R219). -/
def hostMove (m : HostMove) (s : State) : Result :=
  match m with
  | .driveRst level => .next { s with host := { s.host with rst := level } }
  | .assertCompStart => .next { s with host := { s.host with compStart := true } }
  | .assertDecompStart => .next { s with host := { s.host with decompStart := true } }
  | .writeCin a v => s.changeCompInput { s.host with cin := Memory.write s.host.cin a v }
  | .setCinLen n => s.changeCompInput { s.host with cinLen := n }
  | .writeDin a v => s.changeDecompInput { s.host with din := Memory.write s.host.din a v }
  | .setDinLen n => s.changeDecompInput { s.host with dinLen := n }
  | .driveEncode offset length => s.drivePorts { s.host with encOffset := offset, encLength := length }
  | .driveDecode bytes count => s.drivePorts { s.host with decIn := bytes, decCount := count }

/-- The status read, possible at any time (R43). -/
structure StatusRead where
  compSt : BitVec 2
  compCause : BitVec 3
  decompSt : BitVec 2
  decompCause : BitVec 3
  rd : Nat
  cur : Nat
deriving DecidableEq, Repr

/-- What a status read shows (R43). -/
def State.readStatus (s : State) : StatusRead :=
  { compSt := s.comp.st.code, compCause := s.comp.cause.code
    decompSt := s.decomp.st.code, decompCause := s.decomp.cause.code
    rd := s.comp.rd, cur := s.decomp.cur }

/-- The statuses in which the host gets an output length: the result's in DONE (R42), and after reset the 0 it leaves (R219);
while BUSY and in FAULT the length is unspecified (R42, R182; log entry 5). -/
def Status.showsLength : Status → Bool
  | .idle => true
  | .busy => false
  | .done => true
  | .fault => false

/-- `cout_len` as the host may read it (R42, R182, R219). -/
def State.hostCoutLen (s : State) : Option Nat := if s.comp.st.showsLength then some s.comp.coutLen else none

/-- A position of `COUT` as the host may read it: only in DONE (R42, R182). -/
def State.hostCout (s : State) (a : Nat) : Option Byte :=
  if s.comp.st = .done ∧ a < s.comp.coutLen then some (Memory.byteAt .cout s.comp.cout a) else none

/-- `dout_len` as the host may read it (R42, R182, R219). -/
def State.hostDoutLen (s : State) : Option Nat := if s.decomp.st.showsLength then some s.decomp.doutLen else none

/-- A position of `DOUT` as the host may read it: only in DONE (R42, R182). -/
def State.hostDout (s : State) (a : Nat) : Option Byte :=
  if s.decomp.st = .done ∧ a < s.decomp.doutLen then some (Memory.byteAt .dout s.decomp.dout a) else none

/-- The encode ports' fault bit and output as the host may read them: while an engine is BUSY they show nothing to the host
(R208, U11). -/
def State.hostEncode (s : State) : Option (Bool × Option Triple) :=
  if s.busy then none else some (s.encFault, s.encOut)

/-- The decode ports' outputs as the host may read them (R208, U11). -/
def State.hostDecode (s : State) : Option (Bool × Option (BitVec 12) × Option (BitVec 5)) :=
  if s.busy then none else some (s.decFault, s.decOffset, s.decLength)

end Sys2Proof.Machine
end

