-- ==== Sys2Proof/Safety.lean ====
section
/-! DEFINITION. What counts as a good state of CORE (the invariants of 10_state.md), what an operation computes said over byte
sequences alone, and runs of the machine: the terms the statements use. -/

namespace Sys2Proof

/-- An output space lists exactly the positions `0 .. n-1`: what was appended, and nothing beyond (R52, R54). -/
def Machine.Memory.dense (m : Machine.Memory) (n : Nat) : Bool := m.map Prod.fst == List.range n

/-- SDECOMP's new state can be written back: `OUT_CAP` and `LEN_BITS` hold it (R13). -/
def Machine.Sdecomp.Fits (p : Config.Params) (d : Machine.Sdecomp) : Prop :=
  p.capFits d.doutLen = true ∧ p.posFits d.doutLen = true ∧ p.posFits d.cur = true

/-- SCOMP's new state can be written back (R13). -/
def Machine.Scomp.Fits (p : Config.Params) (c : Machine.Scomp) : Prop :=
  p.capFits c.coutLen = true ∧ p.posFits c.coutLen = true ∧ p.posFits c.rd = true

namespace Safety

open Machine

/-- The newest `n` bytes of a sequence, in age order: all of it while it is not longer (R28). -/
def newest (n : Nat) (bytes : List Byte) : List Byte := (bytes.reverse.take n).reverse

/-- An output of length `n` and a position `pos` are within `OUT_CAP` and `LEN_BITS` (R13). -/
def Room (p : Config.Params) (n pos : Nat) : Prop :=
  p.capFits n = true ∧ p.posFits n = true ∧ p.posFits pos = true

/-- The same machine with `LEN_BITS` and `OUT_CAP` unbounded (R13). -/
def unbounded (s : State) : State := { s with params := { s.params with lenBits := none, outCap := none } }

/-- SCOMP moves at the next boundary: it is BUSY and reset is released. -/
def ScompTurn (s : State) : Prop := s.host.rst = false ∧ s.comp.st = .busy

/-- SDECOMP moves at the next boundary. -/
def SdecompTurn (s : State) : Prop := s.host.rst = false ∧ s.comp.st ≠ .busy ∧ s.decomp.st = .busy

/-- A position the finder may accept: window and buffer agree on `SM` = 4 bytes from it, all of them inside the window
(R113, R115). -/
def MatchesAt (w b : List Byte) (i : Nat) : Prop := ∀ j, j < 4 → ∃ v, w[i + j]? = some v ∧ b[j]? = some v

/-- The host's side after a boundary: as before, the strobes over (R40, R41). -/
def strobesOver (h : HostSide) : HostSide := { h with compStart := false, decompStart := false }

/-- The four byte spaces are in canonical form, and an output space holds exactly its length (R33, R36, R50). -/
structure SpacesOk (s : State) : Prop where
  cin : Memory.wf s.host.cin = true
  din : Memory.wf s.host.din = true
  cout : Memory.dense s.comp.cout s.comp.coutLen = true
  dout : Memory.dense s.decomp.dout s.decomp.doutLen = true

/-- The two FIFO stores are within their capacities (R26, R29). -/
structure FifosOk (s : State) : Prop where
  window : s.comp.w.length ≤ Config.wsize
  buffer : s.comp.b.length ≤ Config.bsize

/-- While an engine is BUSY its position lies within its input (R31, R35). -/
structure PositionsOk (s : State) : Prop where
  rd : s.comp.st = .busy → s.comp.rd ≤ s.host.cinLen
  buffered : s.comp.st = .busy → s.comp.b.length ≤ s.comp.rd
  cur : s.decomp.st = .busy → s.decomp.cur ≤ s.host.dinLen

/-- Statuses and causes (R34, R37, R40, R133, R176): one engine BUSY at most, a cause exactly with FAULT, SCOMP never in FAULT,
SDECOMP with no cause but its own two. -/
structure StatusOk (s : State) : Prop where
  one : ¬ (s.comp.st = .busy ∧ s.decomp.st = .busy)
  compSt : s.comp.st ≠ .fault
  compCause : s.comp.cause = .none
  decompCause : s.decomp.cause = .none ↔ s.decomp.st ≠ .fault
  decompOwn : s.decomp.cause ≠ .invalidParameters ∧ s.decomp.cause ≠ .malformedPointer

/-- An IDLE engine is as reset left it: only reset makes an engine IDLE (R43, R45, R180). -/
structure IdleOk (s : State) : Prop where
  comp : s.comp.st = .idle → s.comp = Scomp.reset
  decomp : s.decomp.st = .idle → s.decomp = Sdecomp.reset

/-- Every position and length fits `LEN_BITS`, every output `OUT_CAP` (R13). -/
structure BoundsOk (s : State) : Prop where
  cinLen : s.params.posFits s.host.cinLen = true
  dinLen : s.params.posFits s.host.dinLen = true
  rd : s.params.posFits s.comp.rd = true
  coutLen : s.params.posFits s.comp.coutLen = true
  cur : s.params.posFits s.decomp.cur = true
  doutLen : s.params.posFits s.decomp.doutLen = true
  coutCap : s.params.capFits s.comp.coutLen = true
  doutCap : s.params.capFits s.decomp.doutLen = true

/-- The machine's invariant. -/
structure Inv (s : State) : Prop where
  spaces : SpacesOk s
  fifos : FifosOk s
  positions : PositionsOk s
  status : StatusOk s
  idle : IdleOk s
  bounds : BoundsOk s

/-- SCOMP's stores follow its input at every boundary of a compress (R28, R29): with `p` bytes consumed, `W` is the last
`min(p, WSIZE)` of them and `B` the next `BSIZE`, or what is left. -/
structure Follows (h : HostSide) (c : Scomp) : Prop where
  buffered : c.b.length ≤ c.rd
  window : c.w = newest Config.wsize (h.cinBytes.take c.consumed)
  buffer : c.b = (h.cinBytes.drop c.consumed).take Config.bsize
  read : c.rd = min (c.consumed + Config.bsize) h.cinLen

/-- `appended[k]` for a copy of `n` bytes from position `src` of `out`, byte by byte (R156): the sequence after it. -/
def copyOut (out : List Byte) : Nat → Nat → List Byte
  | 0, _ => out
  | n + 1, src => copyOut (out ++ [out.getD src 0]) n (src + 1)

/-- What a token does to the output, as a function of sequences (R152, R154, R156, R158, R159). -/
def tokenOut (policy : Config.OverlapPolicy) (out : List Byte) : Instr → Except Cause (List Byte)
  | .lit v => .ok (out ++ [v])
  | .esclit => .ok (out ++ [Config.esc])
  | .ptr o l =>
    if out.length < o.toNat + 1 then .error .referenceOutOfRange
    else if policy = .fault ∧ o.toNat + 1 < l.toNat + 4 then .error .referenceOutOfRange
    else .ok (copyOut out (l.toNat + 4) (out.length - o.toNat - 1))

/-- DECOMPRESS as a function of the stream alone (R163): `out` is what earlier tokens produced. The fuel bounds the number of
tokens; a stream of `n` bytes has at most `n` of them. -/
def expandFrom (policy : Config.OverlapPolicy) : Nat → List Byte → List Byte → Except Cause (List Byte)
  | _, [], out => .ok out
  | 0, _ :: _, out => .ok out
  | fuel + 1, b :: rest, out =>
    match decode (b :: rest) with
    | .error _ => .error .truncatedInput
    | .ok (i, rest') =>
      match tokenOut policy out i with
      | .error c => .error c
      | .ok out' => expandFrom policy fuel rest' out'

/-- DECOMPRESS of a whole stream (R150). -/
def expand (policy : Config.OverlapPolicy) (stream : List Byte) : Except Cause (List Byte) :=
  expandFrom policy stream.length stream []

/-- `n` steps from `s` end in `t`, none of them refused. -/
def Runs : Nat → State → State → Prop
  | 0, s, t => t = s
  | n + 1, s, t => ∃ u, step s = .next u ∧ Runs n u t

/-- Neither engine BUSY, reset released, `LEN_BITS` and `OUT_CAP` unbounded: the host may start either engine (R40, R13). -/
structure Ready (s : State) : Prop where
  lenBits : s.params.lenBits = none
  outCap : s.params.outCap = none
  rst : s.host.rst = false
  comp : s.comp.st ≠ .busy
  decomp : s.decomp.st ≠ .busy

end Safety

end Sys2Proof
end

