-- ==== Sys2Proof/Certificates/Slice0/Obligations.lean ====
section
/-! DEFINITION. The statements about CORE, from the numbered rules of spec/: the wire format, PCODEC, MFIND, SCOMP, SDECOMP and
its three tokens, faults, reset and the host's interface, and the machine's invariants. -/

open Sys2Proof Sys2Proof.Machine Sys2Proof.Safety

/-! ### The wire format -/

/-- The decoder gives back every well-formed token from its bytes and leaves what follows (R71, R72, R73, R75, R81). -/
def Obligations.DecodeOfEncode : Prop :=
  ∀ (i : Instr) (rest : List Byte), i.wf = true → decode (encode i ++ rest) = .ok (i, rest)

/-- What the decoder reads is a well-formed token whose bytes stood there: no bit dropped, no encoding read twice
(R75, R78, R79). -/
def Obligations.EncodeOfDecode : Prop :=
  ∀ (bs rest : List Byte) (i : Instr), decode bs = .ok (i, rest) → i.wf = true ∧ bs = encode i ++ rest

/-- R75: the classification of the token at position `c`, its four cases in order. -/
def Obligations.ClassifyAtPosition : Prop :=
  ∀ (S : List Byte) (c : Nat) (b0 : Byte), S[c]? = some b0 →
    (b0 ≠ 0xCC ∧ decode (S.drop c) = .ok (.lit b0, S.drop (c + 1))) ∨
    (b0 = 0xCC ∧ S.length - c < 3 ∧ decode (S.drop c) = .error .truncatedInput) ∨
    (b0 = 0xCC ∧ 3 ≤ S.length - c ∧ (S[c + 1]? = some 0 ∧ S[c + 2]? = some 0) ∧
      decode (S.drop c) = .ok (.esclit, S.drop (c + 3))) ∨
    (b0 = 0xCC ∧ 3 ≤ S.length - c ∧ ¬ (S[c + 1]? = some 0 ∧ S[c + 2]? = some 0) ∧
      ∃ o l, decode (S.drop c) = .ok (.ptr o l, S.drop (c + 3)))

/-- R77: the operands of a PTR token, from `F = S[c+1] * 256 + S[c+2]`. -/
def Obligations.PtrOperandsFromField : Prop :=
  ∀ (b1 b2 : Byte) (rest : List Byte), ¬ (b1 = 0 ∧ b2 = 0) →
    ∃ o l, decode (0xCC :: b1 :: b2 :: rest) = .ok (.ptr o l, rest) ∧
      ptrOffset o = (b1.toNat * 256 + b2.toNat) / 16 ∧ ptrLength l = (b1.toNat * 256 + b2.toNat) % 16 + 4 ∧
      ptrOffset o ≤ 4095 ∧ 4 ≤ ptrLength l ∧ ptrLength l ≤ 19 ∧
      ∀ len0, ptrStart o len0 = len0 - ptrOffset o - 1

/-- The first byte alone gives the token's length (R76). -/
def Obligations.LengthFromFirstByte : Prop :=
  ∀ (b0 : Byte) (tail rest : List Byte) (i : Instr), decode (b0 :: tail) = .ok (i, rest) →
    i.length = (if b0 = 0xCC then 3 else 1) ∧ i.length ≤ (b0 :: tail).length ∧ rest = (b0 :: tail).drop i.length

/-- A few words of the three formats, each written out from 30_encoding.md (sanity). -/
def Obligations.KnownWordsDecode : Prop :=
  decode [0x61] = .ok (.lit 0x61, []) ∧ decode [0xCC, 0x00, 0x00] = .ok (.esclit, []) ∧
  decode [0xCC, 0x12, 0x3A] = .ok (.ptr 291 10, []) ∧ decode [0xCC, 0x00, 0x01] = .ok (.ptr 0 1, []) ∧
  decode [0xCC, 0x01, 0x00] = .ok (.ptr 16 0, []) ∧ decode [0xCC, 0xCC, 0xCC] = .ok (.ptr 3276 12, []) ∧
  decode [0xCC, 0x00] = .error .truncatedInput

/-- The opcode table's words, by its own bit numbers: `esc` at 23:16, `offset` at 15:4, `lenbias` at 3:0, `value` at 7:0
(R72, R81). The numbering of a 24-bit word is log entry 9. -/
def Obligations.TableWordsDecode : Prop :=
  decodeTableWord 24 0xCC0000 = some .esclit ∧
  (∀ (o : BitVec 12) (l : BitVec 4), ¬ (o = 0 ∧ l = 0) →
    decodeTableWord 24 (0xCC * 2 ^ 16 + o.toNat * 2 ^ 4 + l.toNat) = some (.ptr o l)) ∧
  (∀ v : BitVec 8, v ≠ 0xCC → decodeTableWord 8 v.toNat = some (.lit v))

/-! ### PCODEC -/

/-- R98: the round-trip laws of the codec, (a), (b) and (c). -/
def Obligations.CodecRoundTrip : Prop :=
  (∀ o l : Nat, o ≤ 4095 → 4 ≤ l → l ≤ 19 →
    ∃ t, pcodecEncode { offset := o, length := l } = .ok t ∧ pcodecDecode t 3 = .ok { offset := o, length := l }) ∧
  (∀ d : Triple, ∃ r, pcodecDecode d 3 = .ok r ∧ pcodecEncode r = .ok { b0 := 0xCC, b1 := d.b1, b2 := d.b2 }) ∧
  (∀ (r r' : BackRef) (t : Triple), pcodecEncode r = .ok t → pcodecEncode r' = .ok t → r = r') ∧
  (∀ (r : BackRef) (t : Triple), pcodecEncode r = .ok t → t.b0 = 0xCC) ∧
  (∀ x y : Byte, ∃ r, pcodecEncode r = .ok { b0 := 0xCC, b1 := x, b2 := y })

/-- The encode ports: the fault bit exactly on operands out of bounds, the packed field otherwise (R22, R90, R91). -/
def Obligations.EncodePorts : Prop :=
  ∀ s : State,
    let o := s.host.encOffset.toNat
    let l := s.host.encLength.toNat
    (s.encFault = true ↔ 4096 ≤ o ∨ l < 4 ∨ 19 < l) ∧
    (s.encFault = true → s.encOut = none) ∧
    (s.encFault = false → ∃ t, s.encOut = some t ∧ t.b0 = 0xCC ∧
      t.b1.toNat * 256 + t.b2.toNat = o * 16 + (l - 4))

/-- The decode ports: the fault bit exactly on fewer than three bytes, the unpacked field otherwise, always in range and
whatever the first byte is (R23, R94, R95, R96, R97). -/
def Obligations.DecodePorts : Prop :=
  ∀ s : State,
    let f := s.host.decIn.b1.toNat * 256 + s.host.decIn.b2.toNat
    (s.decFault = true ↔ s.host.decCount.toNat < 3) ∧
    (s.decFault = true → s.decOffset = none ∧ s.decLength = none) ∧
    (s.decFault = false → ∃ o l, s.decOffset = some o ∧ s.decLength = some l ∧
      o.toNat = f / 16 ∧ l.toNat = f % 16 + 4 ∧ 4 ≤ l.toNat ∧ l.toNat ≤ 19)

/-- A PTR token's bytes are ENCODE's bytes of its operands, and DECODE gives the operands back: the token format and the
codec are one (R72, R90, R94, R156). -/
def Obligations.TokenIsCodecPair : Prop :=
  ∀ (o : BitVec 12) (l : BitVec 4), ∃ t,
    pcodecEncode { offset := ptrOffset o, length := ptrLength l } = .ok t ∧ t.toList = encode (.ptr o l) ∧
    pcodecDecode t 3 = .ok { offset := ptrOffset o, length := ptrLength l }

/-- The accessor outputs, and that they are consistent with the base parameters (R24, R99, R100). -/
def Obligations.AccessorsConsistent : Prop :=
  (accWsize = 4096 ∧ accBsize = 29 ∧ accLm = 19 ∧ accSm = 4) ∧
  accWsize.toNat = 2 ^ Config.ob ∧ accLm.toNat - accSm.toNat + 1 = 2 ^ Config.lb ∧ accSm.toNat = Config.pfb + 2 ∧
  accLm.toNat ≤ accBsize.toNat ∧ Config.ob + Config.lb = 8 * Config.pfb ∧ Config.format.supported = true

/-! ### MFIND -/

/-- R118: the ranges of FIND's result, and what it means. That FIND is a function is its being one here. -/
def Obligations.FindResultRanges : Prop :=
  ∀ (w b : List Byte) (r : BackRef), w.length ≤ 4096 → find w b = some r →
    3 ≤ r.offset ∧ r.offset ≤ w.length - 1 ∧ w.length - 1 ≤ 4095 ∧
    4 ≤ r.length ∧ r.length ≤ 19 ∧ r.length ≤ b.length ∧ r.length ≤ r.offset + 1 ∧
    (∀ j, j < r.length → ∃ v, w[w.length - 1 - r.offset + j]? = some v ∧ b[j]? = some v) ∧
    (∃ t, pcodecEncode r = .ok t) ∧ r ≠ { offset := 0, length := 4 }

/-- The match FIND returns starts at the most recent position at which 4 bytes agree, whatever longer runs stand further back,
and is as long as the window's end, the buffer's end, 19 bytes and the first mismatch allow (R110, R111, R113, R115, R116). -/
def Obligations.NearestMatchWins : Prop :=
  ∀ (w b : List Byte) (r : BackRef), find w b = some r →
    ∃ i, i + r.offset + 1 = w.length ∧ MatchesAt w b i ∧ (∀ j, i < j → ¬ MatchesAt w b j) ∧
      (∀ j, j < r.length → ∃ v, w[i + j]? = some v ∧ b[j]? = some v) ∧ r.length ≤ 19 ∧
      (r.length = 19 ∨ r.length = b.length ∨ i + r.length = w.length ∨ w[i + r.length]? ≠ b[r.length]?)

/-- FIND reports no match exactly when no position agrees on 4 bytes; in particular with fewer than 4 bytes in either store
(R117). -/
def Obligations.NoMatchExactly : Prop :=
  ∀ w b : List Byte,
    (find w b = none ↔ ∀ i, ¬ MatchesAt w b i) ∧ (w.length < 4 ∨ b.length < 4 → find w b = none)

/-- The finder's outputs for the step SCOMP is about to make: `mf_found`, and with a match the pair, which fits the 12 and 5
bits (R25, R116). Where no FIND follows, an engine not BUSY, an empty buffer or `rst` asserted, they have no value (R45). That
they stand at the boundary the step begins at is the model's choice (log entry 16). -/
def Obligations.FinderOutputs : Prop :=
  ∀ s : State, s.comp.w.length ≤ 4096 →
    (¬ ScompTurn s ∨ s.comp.b = [] → s.mfFound = none ∧ s.mfOffset = none ∧ s.mfLength = none) ∧
    (ScompTurn s →
      (s.comp.b ≠ [] → find s.comp.w s.comp.b = none →
        s.mfFound = some false ∧ s.mfOffset = none ∧ s.mfLength = none) ∧
      ∀ r, find s.comp.w s.comp.b = some r → s.mfFound = some true ∧
        ∃ o l, s.mfOffset = some o ∧ s.mfLength = some l ∧ o.toNat = r.offset ∧ l.toNat = r.length)

/-! ### SCOMP -/

/-- R27: `Push` evicts the oldest entry when the window is full, and keeps the newest 4096 bytes in age order. -/
def Obligations.PushKeepsNewest : Prop :=
  ∀ (w : List Byte) (v : Byte), w.length ≤ 4096 →
    windowPush w v = (if w.length = 4096 then w.drop 1 else w) ++ [v] ∧
    (windowPush w v).length = min (w.length + 1) 4096 ∧ windowPush w v = newest 4096 (w ++ [v])

/-- R126 with R40 and R41: an accepted `comp_start`, whatever the previous state and whether or not `decomp_start` is asserted
too. -/
def Obligations.CompStartInitialises : Prop :=
  ∀ s : State, s.host.rst = false → s.comp.st ≠ .busy → s.decomp.st ≠ .busy → s.host.compStart = true →
    s.params.posFits (min 29 s.host.cinLen) = true →
    step s = .next { s with
      host := strobesOver s.host
      comp := { w := [], b := s.host.cinBytes.take 29, rd := min 29 s.host.cinLen
                cout := [], coutLen := 0, st := .busy, cause := .none } }

/-- A literal step: no match, so the front byte moves to the window and one token goes out, escaped exactly when the byte is the
marker; one byte is refilled if one is left; nothing else of the machine changes (R128, R129, R130, R131). -/
def Obligations.LiteralStepEffect : Prop :=
  ∀ (s : State) (v : Byte) (rest out : List Byte), ScompTurn s → s.comp.b = v :: rest →
    find s.comp.w s.comp.b = none → out = (if v = 0xCC then [0xCC, 0x00, 0x00] else [v]) →
    Room s.params (s.comp.coutLen + out.length) (s.comp.rd + min 1 (s.host.cinLen - s.comp.rd)) →
    ∃ t, step s = .next t ∧
      t.comp.w = windowPush s.comp.w v ∧
      t.comp.b = rest ++ (s.host.cinBytes.drop s.comp.rd).take 1 ∧
      t.comp.rd = s.comp.rd + min 1 (s.host.cinLen - s.comp.rd) ∧
      t.comp.coutLen = s.comp.coutLen + out.length ∧ t.comp.coutBytes = s.comp.coutBytes ++ out ∧
      (∀ a, a < s.comp.coutLen ∨ s.comp.coutLen + out.length ≤ a →
        Memory.read t.comp.cout a = Memory.read s.comp.cout a) ∧
      (t.comp.b = [] ∧ t.comp.st = .done ∨ t.comp.b ≠ [] ∧ t.comp.st = .busy) ∧ t.comp.cause = s.comp.cause ∧
      t.decomp = s.decomp ∧ t.params = s.params ∧ t.host = strobesOver s.host

/-- A match step: the pointer's three bytes go out, `length` bytes move to the window, as many are refilled as are left
(R128, R132). -/
def Obligations.MatchStepEffect : Prop :=
  ∀ (s : State) (r : BackRef), ScompTurn s → s.comp.w.length ≤ 4096 → find s.comp.w s.comp.b = some r →
    Room s.params (s.comp.coutLen + 3) (s.comp.rd + min r.length (s.host.cinLen - s.comp.rd)) →
    ∃ t, step s = .next t ∧
      t.comp.w = newest 4096 (s.comp.w ++ s.comp.b.take r.length) ∧
      t.comp.b = s.comp.b.drop r.length ++ (s.host.cinBytes.drop s.comp.rd).take r.length ∧
      t.comp.rd = s.comp.rd + min r.length (s.host.cinLen - s.comp.rd) ∧
      t.comp.coutLen = s.comp.coutLen + 3 ∧
      (∃ t1 t2 : Byte, t.comp.coutBytes = s.comp.coutBytes ++ [0xCC, t1, t2] ∧
        t1.toNat * 256 + t2.toNat = r.offset * 16 + (r.length - 4)) ∧
      (∀ a, a < s.comp.coutLen ∨ s.comp.coutLen + 3 ≤ a →
        Memory.read t.comp.cout a = Memory.read s.comp.cout a) ∧
      (t.comp.b = [] ∧ t.comp.st = .done ∨ t.comp.b ≠ [] ∧ t.comp.st = .busy) ∧ t.comp.cause = s.comp.cause ∧
      t.decomp = s.decomp ∧ t.params = s.params ∧ t.host = strobesOver s.host

/-- No step puts SCOMP into FAULT or gives it a cause: FIND's pairs are inside ENCODE's bounds (R133). The window's capacity is
an invariant of the machine (`InvariantKept`). -/
def Obligations.CompressorNeverFaults : Prop :=
  ∀ s t : State, s.comp.w.length ≤ 4096 → s.comp.st ≠ .fault → s.comp.cause = .none → step s = .next t →
    t.comp.st ≠ .fault ∧ t.comp.cause = .none

/-- At every boundary of a compress the stores follow the input: `W` is the last `min(p, 4096)` bytes consumed, `B` the next 29
or what is left, `rd` just behind them. Held by an accepted start, kept by every step of the operation (R28, R29, R31, R32). -/
def Obligations.StoresFollowInput : Prop :=
  ∀ s t : State, s.host.rst = false → step s = .next t →
    (s.comp.st = .busy → Follows s.host s.comp) → s.comp.st = .busy ∨ t.comp.st = .busy →
    Follows t.host t.comp

/-- A pointer SCOMP emits never reaches before the input's start nor past what is consumed, and stands for the input bytes it
covers (R135, R137). -/
def Obligations.EmittedPointersInHistory : Prop :=
  ∀ (s : State) (r : BackRef), Follows s.host s.comp → find s.comp.w s.comp.b = some r →
    3 ≤ r.offset ∧ r.offset ≤ 4095 ∧ 4 ≤ r.length ∧ r.length ≤ 19 ∧ r.length ≤ r.offset + 1 ∧
    r.offset + 1 ≤ min s.comp.consumed 4096 ∧ s.comp.consumed + r.length ≤ s.host.cinLen ∧
    ∀ x, x < r.length → s.host.cinBytes[s.comp.consumed + x]? = s.host.cinBytes[s.comp.consumed - r.offset - 1 + x]?

/-- At every boundary of a compress the stream written so far is a sequence of whole tokens that expands, under either overlap
policy, to exactly the input consumed so far (R136, R137). -/
def Obligations.OutputExpandsToInput : Prop :=
  ∀ (policy : Config.OverlapPolicy) (s t : State), s.host.rst = false → step s = .next t →
    (s.comp.st = .busy → Follows s.host s.comp ∧
      expand policy s.comp.coutBytes = .ok (s.host.cinBytes.take s.comp.consumed)) →
    s.comp.st = .busy ∨ t.comp.st = .busy →
    expand policy t.comp.coutBytes = .ok (t.host.cinBytes.take t.comp.consumed)

/-- The output is never longer than three bytes per input byte consumed (R33, R140). -/
def Obligations.OutputAtMostTriple : Prop :=
  ∀ s t : State, ScompTurn s → s.comp.w.length ≤ 4096 → s.comp.b.length ≤ s.comp.rd →
    s.comp.coutLen ≤ 3 * s.comp.consumed → step s = .next t →
    t.comp.b.length ≤ t.comp.rd ∧ t.comp.coutLen ≤ 3 * t.comp.consumed

/-- Every accepted compress reaches DONE: BUSY at each of the `n` boundaries before, with `n` at most `cin_len` (one boundary for
the empty input, log entry 6) and at least a nineteenth of it (R134, R217, R218). -/
def Obligations.CompressTerminates : Prop :=
  ∀ s : State, Ready s → s.host.compStart = true →
    ∃ n t, Runs (n + 1) s t ∧ t.comp.st = .done ∧ t.comp.cause = .none ∧ n ≤ max 1 s.host.cinLen ∧
      s.host.cinLen ≤ 19 * n ∧ ∀ m, m < n → ∃ u, Runs (m + 1) s u ∧ u.comp.st = .busy

/-- COMPRESS is a function of its input alone: two machines started on the same input bytes, whatever else they hold, go through
the same states of SCOMP (R44, R138). -/
def Obligations.CompressDependsOnInputOnly : Prop :=
  ∀ (s s' t : State) (n : Nat), Ready s → Ready s' → s.host.compStart = true → s'.host.compStart = true →
    s.host.cinBytes = s'.host.cinBytes → Runs (n + 1) s t → ∃ t', Runs (n + 1) s' t' ∧ t'.comp = t.comp

/-- R141: for every input, the compress ends in DONE, and a decompress of its output ends in DONE with the input. -/
def Obligations.RoundTrip : Prop :=
  ∀ s : State, Ready s → s.host.compStart = true →
    ∃ n t, Runs n s t ∧ t.comp.st = .done ∧
      ∀ u : State, Ready u → u.host.compStart = false → u.host.decompStart = true →
        u.host.dinBytes = t.comp.coutBytes →
        ∃ m v, Runs m u v ∧ v.decomp.st = .done ∧ v.decomp.doutBytes = s.host.cinBytes

/-! ### SDECOMP and the tokens -/

/-- R150 with R41: an accepted `decomp_start`. -/
def Obligations.DecompStartInitialises : Prop :=
  ∀ s : State, s.host.rst = false → s.comp.st ≠ .busy → s.decomp.st ≠ .busy → s.host.compStart = false →
    s.host.decompStart = true →
    step s = .next { s with
      host := strobesOver s.host
      decomp := { cur := 0, dout := [], doutLen := 0, st := .busy, cause := .none } }

/-- The empty input: from the accepted start to DONE with no output and nothing else written (R134, R160). That a status read
sees BUSY at the one boundary between is the model's choice (log entry 6). -/
def Obligations.EmptyInputIsDone : Prop :=
  ∀ s : State, s.host.rst = false → s.comp.st ≠ .busy → s.decomp.st ≠ .busy →
    (s.host.compStart = true → s.host.cinLen = 0 → Runs 2 s { s with
      host := strobesOver s.host
      comp := { w := [], b := [], rd := 0, cout := [], coutLen := 0, st := .done, cause := .none } }) ∧
    (s.host.compStart = false → s.host.decompStart = true → s.host.dinLen = 0 → Runs 2 s { s with
      host := strobesOver s.host
      decomp := { cur := 0, dout := [], doutLen := 0, st := .done, cause := .none } })

/-- R152: LIT appends its byte and advances `cur` by 1, and changes nothing else. -/
def Obligations.LitResult : Prop :=
  ∀ (s : State) (v : BitVec 8), Room s.params (s.decomp.doutLen + 1) (s.decomp.cur + 1) →
    ∃ t, exec (.lit v) s = .next t ∧ t.decomp.doutLen = s.decomp.doutLen + 1 ∧ t.decomp.cur = s.decomp.cur + 1 ∧
      Memory.read t.decomp.dout s.decomp.doutLen = some v ∧
      (∀ a, a ≠ s.decomp.doutLen → Memory.read t.decomp.dout a = Memory.read s.decomp.dout a) ∧
      t.decomp.st = s.decomp.st ∧ t.decomp.cause = s.decomp.cause ∧
      t.params = s.params ∧ t.host = s.host ∧ t.comp = s.comp

/-- ESCLIT appends the byte 0xCC and advances `cur` by 3, and changes nothing else (R154). -/
def Obligations.EsclitResult : Prop :=
  ∀ s : State, Room s.params (s.decomp.doutLen + 1) (s.decomp.cur + 3) →
    ∃ t, exec .esclit s = .next t ∧ t.decomp.doutLen = s.decomp.doutLen + 1 ∧ t.decomp.cur = s.decomp.cur + 3 ∧
      Memory.read t.decomp.dout s.decomp.doutLen = some 0xCC ∧
      (∀ a, a ≠ s.decomp.doutLen → Memory.read t.decomp.dout a = Memory.read s.decomp.dout a) ∧
      t.decomp.st = s.decomp.st ∧ t.decomp.cause = s.decomp.cause ∧
      t.params = s.params ∧ t.host = s.host ∧ t.comp = s.comp

/-- PTR, its reference in range and its overlap allowed: `length` bytes appended, each the byte that stands `offset + 1`
positions before it as the copy leaves the output; `cur` advances by 3; every byte outside the appended ones and all else of the
machine unchanged (R156). -/
def Obligations.PtrResult : Prop :=
  ∀ (s : State) (o : BitVec 12) (l : BitVec 4), o.toNat + 1 ≤ s.decomp.doutLen →
    s.params.overlap = .replicate ∨ l.toNat + 4 ≤ o.toNat + 1 →
    Room s.params (s.decomp.doutLen + (l.toNat + 4)) (s.decomp.cur + 3) →
    ∃ t, exec (.ptr o l) s = .next t ∧ t.decomp.doutLen = s.decomp.doutLen + (l.toNat + 4) ∧
      t.decomp.cur = s.decomp.cur + 3 ∧
      (∀ k, k < l.toNat + 4 → Memory.read t.decomp.dout (s.decomp.doutLen + k) =
        some (t.decomp.readDout (s.decomp.doutLen - o.toNat - 1 + k))) ∧
      (∀ a, a < s.decomp.doutLen ∨ s.decomp.doutLen + (l.toNat + 4) ≤ a →
        Memory.read t.decomp.dout a = Memory.read s.decomp.dout a) ∧
      t.decomp.st = s.decomp.st ∧ t.decomp.cause = s.decomp.cause ∧
      t.params = s.params ∧ t.host = s.host ∧ t.comp = s.comp

/-- The pointers SCOMP emits, `length <= offset + 1`: the output grows by the slice `DOUT[start : start + length]` of what was
there before, under either policy (R156). -/
def Obligations.PtrWithoutOverlapCopiesSlice : Prop :=
  ∀ (s : State) (o : BitVec 12) (l : BitVec 4), o.toNat + 1 ≤ s.decomp.doutLen → l.toNat + 4 ≤ o.toNat + 1 →
    Room s.params (s.decomp.doutLen + (l.toNat + 4)) (s.decomp.cur + 3) →
    ∃ t, exec (.ptr o l) s = .next t ∧ t.decomp.doutBytes =
      s.decomp.doutBytes ++ (s.decomp.doutBytes.drop (s.decomp.doutLen - o.toNat - 1)).take (l.toNat + 4)

/-- R159: a PTR with `length > offset + 1` repeats the last `offset + 1` bytes cyclically; with `OVERLAP_POLICY = fault` it
raises `ReferenceOutOfRange`. -/
def Obligations.PtrOverlapReplicates : Prop :=
  ∀ (s : State) (o : BitVec 12) (l : BitVec 4), o.toNat + 1 ≤ s.decomp.doutLen → o.toNat + 1 < l.toNat + 4 →
    (s.params.overlap = .replicate → Room s.params (s.decomp.doutLen + (l.toNat + 4)) (s.decomp.cur + 3) →
      ∃ t, exec (.ptr o l) s = .next t ∧ t.decomp.doutLen = s.decomp.doutLen + (l.toNat + 4) ∧
        t.decomp.doutBytes.take s.decomp.doutLen = s.decomp.doutBytes ∧
        ∀ k, k < l.toNat + 4 → t.decomp.doutBytes[s.decomp.doutLen + k]? =
          s.decomp.doutBytes[s.decomp.doutLen - o.toNat - 1 + k % (o.toNat + 1)]?) ∧
    (s.params.overlap = .fault → exec (.ptr o l) s =
      .next { s with decomp := { s.decomp with cause := .referenceOutOfRange, st := .fault } })

/-- R158: a PTR with `offset + 1 > dout_len` raises `ReferenceOutOfRange` before any byte is copied, `cur` staying at its first
byte; under the default policy no other PTR raises it. -/
def Obligations.PtrOutOfRangeFaults : Prop :=
  ∀ (s : State) (o : BitVec 12) (l : BitVec 4),
    (s.decomp.doutLen < o.toNat + 1 → exec (.ptr o l) s =
      .next { s with decomp := { s.decomp with cause := .referenceOutOfRange, st := .fault } }) ∧
    (o.toNat + 1 ≤ s.decomp.doutLen → s.params.overlap = .replicate → ∀ t, exec (.ptr o l) s = .next t →
      t.decomp.st = s.decomp.st ∧ t.decomp.cause = s.decomp.cause)

/-- The frame of every token: parameters, host side and SCOMP untouched; of `DOUT` only the appended bytes, which start at
`dout_len`; `cur` moves by the token's length, or, with FAULT, not at all (R167, R168, R170, R188). -/
def Obligations.TokenFrame : Prop :=
  ∀ (i : Instr) (s t : State), exec i s = .next t →
    t.params = s.params ∧ t.host = s.host ∧ t.comp = s.comp ∧ s.decomp.doutLen ≤ t.decomp.doutLen ∧
    (∀ a, a < s.decomp.doutLen ∨ t.decomp.doutLen ≤ a →
      Memory.read t.decomp.dout a = Memory.read s.decomp.dout a) ∧
    ((t.decomp.st = s.decomp.st ∧ t.decomp.cause = s.decomp.cause ∧ t.decomp.cur = s.decomp.cur + i.length) ∨
     (t.decomp.st = .fault ∧ t.decomp.cause = .referenceOutOfRange ∧ t.decomp.cur = s.decomp.cur ∧
      t.decomp.dout = s.decomp.dout ∧ t.decomp.doutLen = s.decomp.doutLen))

/-- A step runs the decoded token: where the bytes of `DIN` at `cur` decode to `i`, the step is `exec i`, with the strobes over,
and DONE set after it when `cur` has reached `din_len` (R151, R160). -/
def Obligations.StepRunsDecodedToken : Prop :=
  ∀ (s : State) (i : Instr) (rest : List Byte), SdecompTurn s →
    decode (s.host.dinBytes.drop s.decomp.cur) = .ok (i, rest) →
    step s = mapNext State.settleDecomp (exec i { s with host := strobesOver s.host })

/-- R157: the marker with fewer than three bytes left raises `TruncatedInput` before any write of the step. -/
def Obligations.TruncatedMarkerFaults : Prop :=
  ∀ s : State, SdecompTurn s → s.host.dinBytes[s.decomp.cur]? = some 0xCC → s.host.dinLen - s.decomp.cur < 3 →
    step s = .next { s with
      host := strobesOver s.host
      decomp := { s.decomp with cause := .truncatedInput, st := .fault } }

/-- SDECOMP's position after a step: never beyond `din_len`, and at it exactly when the status is DONE: before it while BUSY and
in FAULT, where it has not moved (R35, R160, R180, R181). -/
def Obligations.DecompStopsAtEnd : Prop :=
  ∀ s t : State, SdecompTurn s → s.decomp.cur ≤ s.host.dinLen → step s = .next t →
    t.decomp.cur ≤ t.host.dinLen ∧
    (t.decomp.st = .done ∧ t.decomp.cur = t.host.dinLen ∨
     t.decomp.st = .busy ∧ t.decomp.cur < t.host.dinLen ∨
     t.decomp.st = .fault ∧ t.decomp.cur < t.host.dinLen ∧ t.decomp.cur = s.decomp.cur ∧
       t.decomp.dout = s.decomp.dout ∧ t.decomp.doutLen = s.decomp.doutLen ∧
       (t.decomp.cause = .truncatedInput ∨ t.decomp.cause = .referenceOutOfRange))

/-- Every accepted decompress ends, in DONE or FAULT: BUSY at each of the `n` boundaries before, with `n` at most `din_len` (one
boundary for the empty stream, log entry 6) and, if DONE, at least a third of it (R160, R163, R217, R218). -/
def Obligations.DecompressTerminates : Prop :=
  ∀ s : State, Ready s → s.host.compStart = false → s.host.decompStart = true →
    ∃ n t, Runs (n + 1) s t ∧ n ≤ max 1 s.host.dinLen ∧
      (t.decomp.st = .done ∧ s.host.dinLen ≤ 3 * n ∨ t.decomp.st = .fault) ∧
      ∀ m, m < n → ∃ u, Runs (m + 1) s u ∧ u.decomp.st = .busy

/-- DECOMPRESS computes `expand` of its stream, a function of `DIN[0 : din_len]` alone: DONE with its output, or FAULT with its
cause (R150, R151, R163). -/
def Obligations.DecompressComputesExpand : Prop :=
  ∀ s : State, Ready s → s.host.compStart = false → s.host.decompStart = true →
    ∃ n t, Runs n s t ∧
      (∀ out, expand s.params.overlap s.host.dinBytes = .ok out →
        t.decomp.st = .done ∧ t.decomp.doutBytes = out ∧ t.decomp.cause = .none ∧
        t.decomp.cur = s.host.dinLen) ∧
      (∀ c, expand s.params.overlap s.host.dinBytes = .error c →
        t.decomp.st = .fault ∧ t.decomp.cause = c)

/-- A stream without the marker is copied unchanged (R153). -/
def Obligations.NoMarkerCopiedUnchanged : Prop :=
  ∀ s : State, Ready s → s.host.compStart = false → s.host.decompStart = true →
    (0xCC : Byte) ∉ s.host.dinBytes →
    ∃ n t, Runs n s t ∧ t.decomp.st = .done ∧ t.decomp.doutBytes = s.host.dinBytes

/-- The output's growth: 1 byte for a byte, at most 19 for three (R164). -/
def Obligations.OutputGrowthBound : Prop :=
  ∀ s t : State, SdecompTurn s → s.decomp.doutLen ≤ 19 * (s.decomp.cur / 3) + s.decomp.cur % 3 → step s = .next t →
    t.decomp.doutLen ≤ 19 * (t.decomp.cur / 3) + t.decomp.cur % 3

/-- A PTR learns nothing from further back than 4096 bytes: two machines whose outputs have one length and agree on their last
4096 bytes append the same bytes (R36, R54, R188). -/
def Obligations.PtrReadsLast4096 : Prop :=
  ∀ (o : BitVec 12) (l : BitVec 4) (s s' t t' : State), s.decomp.doutLen = s'.decomp.doutLen →
    (∀ a, a < s.decomp.doutLen → s.decomp.doutLen ≤ a + 4096 → s.decomp.readDout a = s'.decomp.readDout a) →
    s.params.overlap = s'.params.overlap → exec (.ptr o l) s = .next t → exec (.ptr o l) s' = .next t' →
    t.decomp.doutLen = t'.decomp.doutLen ∧
    ∀ a, s.decomp.doutLen ≤ a → a < t.decomp.doutLen → t.decomp.readDout a = t'.decomp.readDout a

/-! ### Status, reset, the host -/

/-- The codes a status read shows, two bits of status and three of cause; 5 to 7 are the code of no cause (R34, R37, R176). -/
def Obligations.StatusAndCauseCodes : Prop :=
  (Status.idle.code = 0 ∧ Status.busy.code = 1 ∧ Status.done.code = 2 ∧ Status.fault.code = 3) ∧
  (Cause.none.code = 0 ∧ Cause.invalidParameters.code = 1 ∧ Cause.malformedPointer.code = 2 ∧
    Cause.truncatedInput.code = 3 ∧ Cause.referenceOutOfRange.code = 4) ∧
  ∀ s : State, s.readStatus = { compSt := s.comp.st.code, compCause := s.comp.cause.code, decompSt := s.decomp.st.code,
                                decompCause := s.decomp.cause.code, rd := s.comp.rd, cur := s.decomp.cur } ∧
    s.readStatus.compCause.toNat < 5 ∧ s.readStatus.decompCause.toNat < 5

/-- R45: what reset leaves of CORE's own state. The values of the host's inputs are the model's (log entry 2). -/
def Obligations.ResetValues : Prop :=
  State.reset.comp = { w := [], b := [], rd := 0, cout := [], coutLen := 0, st := .idle, cause := .none } ∧
  State.reset.decomp = { cur := 0, dout := [], doutLen := 0, st := .idle, cause := .none } ∧
  State.reset.readStatus = { compSt := 0, compCause := 0, decompSt := 0, decompCause := 0, rd := 0, cur := 0 }

/-- R200: `rst` sampled asserted, in any state, a BUSY one too: CORE's state takes its reset values and starts are ignored; the
host's inputs and the parameters stay as they were (R201, R202). -/
def Obligations.ResetFromAnyState : Prop :=
  ∀ s : State, s.host.rst = true →
    step s = .next { s with
      host := strobesOver s.host
      comp := { w := [], b := [], rd := 0, cout := [], coutLen := 0, st := .idle, cause := .none }
      decomp := { cur := 0, dout := [], doutLen := 0, st := .idle, cause := .none } }

/-- R206: a start asserted while an engine is BUSY changes nothing: the step is that of the machine with no start asserted
(R40, R41). -/
def Obligations.StartIgnoredWhileBusy : Prop :=
  ∀ s : State, s.busy = true → step s = step { s with host := strobesOver s.host }

/-- DONE and FAULT stay: an engine that is not BUSY keeps all its state but at its own accepted start or at reset, so neither the
other engine's start nor its steps change it (R43, R180, R184). The last clause says of a BUSY SCOMP that SDECOMP keeps its state,
whatever its status: with SDECOMP not BUSY that is the first clause again, and with both BUSY, a state the spec does not describe
and no run reaches, it is the model's choice (DESIGN CHOICE, log entry 7). -/
def Obligations.StoppedEngineKeepsState : Prop :=
  ∀ s t : State, s.host.rst = false → step s = .next t →
    (s.decomp.st ≠ .busy → t.decomp = s.decomp ∨
      (s.comp.st ≠ .busy ∧ s.host.compStart = false ∧ s.host.decompStart = true)) ∧
    (s.comp.st ≠ .busy → t.comp = s.comp ∨ (s.decomp.st ≠ .busy ∧ s.host.compStart = true)) ∧
    (s.comp.st = .busy → t.decomp = s.decomp)

/-- CORE never writes what the host owns, nor a parameter: after any step `CIN`, `DIN`, their lengths, `rst` and every port are as
they were, and the strobes are over (R40, R41, R66, R202; that a strobe lasts one boundary, log entry 4). -/
def Obligations.HostSideUntouched : Prop :=
  ∀ s t : State, step s = .next t → t.params = s.params ∧ t.host = strobesOver s.host

/-- A step stops only where an implementation bound is passed. The machine with `LEN_BITS` and `OUT_CAP` taken away always has a
next state `u`; the machine with them never faults, and either takes that very step or is refused because the output length, or
the length or position, that the moving engine has in `u` does not fit (R13, R180). That it is this step that is refused is the
model's choice (DESIGN CHOICE, log entry 11). -/
def Obligations.StopsOnlyAtBounds : Prop :=
  ∀ s : State, (∀ r, step s ≠ .fault r) ∧
    (s.params.outCap = none → s.params.lenBits = none → ∃ t, step s = .next t) ∧
    ∃ u, step (unbounded s) = .next u ∧
      (step s = .next { u with params := s.params } ∨
       (step s = .refused .outCapExceeded ∧
         (u.decomp = s.decomp ∧ s.params.capFits u.comp.coutLen = false ∨
          u.comp = s.comp ∧ s.params.capFits u.decomp.doutLen = false)) ∨
       (step s = .refused .lenBitsExceeded ∧
         (u.decomp = s.decomp ∧ (s.params.posFits u.comp.coutLen = false ∨ s.params.posFits u.comp.rd = false) ∨
          u.comp = s.comp ∧ (s.params.posFits u.decomp.doutLen = false ∨ s.params.posFits u.decomp.cur = false))))

/-- Each token that would make `DOUT` longer than `OUT_CAP`, or `dout_len` or `cur` too wide for `LEN_BITS`, is refused, not
wrapped; a PTR under either overlap policy, where it does not fault (R13). That the refusal comes at the very token that would
pass the bound, and which of the two bounds it names when both are passed, is the model's choice (DESIGN CHOICE, log entry 11). -/
def Obligations.BoundsRefuse : Prop :=
  (∀ (s : State) (v : BitVec 8),
    (s.params.capFits (s.decomp.doutLen + 1) = false → exec (.lit v) s = .refused .outCapExceeded) ∧
    (s.params.capFits (s.decomp.doutLen + 1) = true →
      s.params.posFits (s.decomp.doutLen + 1) = false ∨ s.params.posFits (s.decomp.cur + 1) = false →
      exec (.lit v) s = .refused .lenBitsExceeded)) ∧
  (∀ s : State,
    (s.params.capFits (s.decomp.doutLen + 1) = false → exec .esclit s = .refused .outCapExceeded) ∧
    (s.params.capFits (s.decomp.doutLen + 1) = true →
      s.params.posFits (s.decomp.doutLen + 1) = false ∨ s.params.posFits (s.decomp.cur + 3) = false →
      exec .esclit s = .refused .lenBitsExceeded)) ∧
  (∀ (s : State) (o : BitVec 12) (l : BitVec 4), o.toNat + 1 ≤ s.decomp.doutLen →
    s.params.overlap = .replicate ∨ l.toNat + 4 ≤ o.toNat + 1 →
    (s.params.capFits (s.decomp.doutLen + (l.toNat + 4)) = false →
      exec (.ptr o l) s = .refused .outCapExceeded) ∧
    (s.params.capFits (s.decomp.doutLen + (l.toNat + 4)) = true →
      s.params.posFits (s.decomp.doutLen + (l.toNat + 4)) = false ∨ s.params.posFits (s.decomp.cur + 3) = false →
      exec (.ptr o l) s = .refused .lenBitsExceeded))

/-- What the host may read of an output in each status: its length and its positions in DONE (R42); no position in any other,
and no length while BUSY or in FAULT (R182); the length in IDLE. A reset gives back both statuses IDLE and both lengths 0
(R219). -/
def Obligations.OutputReadsByStatus : Prop :=
  ∀ (s : State) (a : Nat),
    (s.comp.st ≠ .done → s.hostCout a = none) ∧ (s.decomp.st ≠ .done → s.hostDout a = none) ∧
    (s.comp.st = .busy ∨ s.comp.st = .fault → s.hostCoutLen = none) ∧
    (s.decomp.st = .busy ∨ s.decomp.st = .fault → s.hostDoutLen = none) ∧
    (s.comp.st = .idle → s.hostCoutLen = some s.comp.coutLen) ∧
    (s.decomp.st = .idle → s.hostDoutLen = some s.decomp.doutLen) ∧
    (s.comp.st = .done → s.hostCoutLen = some s.comp.coutLen ∧ s.hostCout a = s.comp.coutBytes[a]?) ∧
    (s.decomp.st = .done → s.hostDoutLen = some s.decomp.doutLen ∧ s.hostDout a = s.decomp.doutBytes[a]?) ∧
    (s.host.rst = true → ∃ t, step s = .next t ∧ t.readStatus.compSt = 0 ∧ t.readStatus.decompSt = 0 ∧
      t.hostCoutLen = some 0 ∧ t.hostDoutLen = some 0)

/-- The host's duties as refusals: no change of an input or its length while its engine is BUSY, no driving of PCODEC's ports
while either is (R207, R208). -/
def Obligations.ForbiddenMovesRefused : Prop :=
  ∀ s : State,
    (s.comp.st = .busy → ∀ a v n, hostMove (.writeCin a v) s = .refused .inputChangedWhileBusy ∧
      hostMove (.setCinLen n) s = .refused .inputChangedWhileBusy) ∧
    (s.decomp.st = .busy → ∀ a v n, hostMove (.writeDin a v) s = .refused .inputChangedWhileBusy ∧
      hostMove (.setDinLen n) s = .refused .inputChangedWhileBusy) ∧
    (s.busy = true → ∀ o l d n, hostMove (.driveEncode o l) s = .refused .portsDrivenWhileBusy ∧
      hostMove (.driveDecode d n) s = .refused .portsDrivenWhileBusy)

/-- No host move changes anything of either engine; driving PCODEC's ports changes no status and no cause (R28, R42, R183). What
a move that drives a pin or the ports does change is that input alone (R22, R23, R40, R41, R200, R204). -/
def Obligations.HostMovesLeaveEngines : Prop :=
  (∀ (m : HostMove) (s t : State), hostMove m s = .next t →
    t.comp = s.comp ∧ t.decomp = s.decomp ∧ t.params = s.params ∧ t.readStatus = s.readStatus) ∧
  ∀ s : State,
    (∀ level, hostMove (.driveRst level) s = .next { s with host := { s.host with rst := level } }) ∧
    hostMove .assertCompStart s = .next { s with host := { s.host with compStart := true } } ∧
    hostMove .assertDecompStart s = .next { s with host := { s.host with decompStart := true } } ∧
    (s.busy = false → ∀ o l d n,
      hostMove (.driveEncode o l) s = .next { s with host := { s.host with encOffset := o, encLength := l } } ∧
      hostMove (.driveDecode d n) s = .next { s with host := { s.host with decIn := d, decCount := n } })

/-- The host's writes of its inputs while their engine is not BUSY. A byte of `CIN` or `DIN`: that position reads as written,
every other as before, and nothing else of the machine changes, the lengths and the other engine's input among it. A length: it
holds the new value, and nothing else changes (R64, R204). A length too wide for `LEN_BITS` is refused (R13, log entry 11). -/
def Obligations.InputWriteEffect : Prop :=
  ∀ (s : State) (a n : Nat) (v : Byte),
    (s.comp.st ≠ .busy →
      (s.params.posFits s.host.cinLen = true →
        ∃ m, hostMove (.writeCin a v) s = .next { s with host := { s.host with cin := m } } ∧
          ∀ x, Memory.read m x = if x = a then some v else Memory.read s.host.cin x) ∧
      (s.params.posFits n = true →
        hostMove (.setCinLen n) s = .next { s with host := { s.host with cinLen := n } }) ∧
      (s.params.posFits n = false → hostMove (.setCinLen n) s = .refused .lenBitsExceeded)) ∧
    (s.decomp.st ≠ .busy →
      (s.params.posFits s.host.dinLen = true →
        ∃ m, hostMove (.writeDin a v) s = .next { s with host := { s.host with din := m } } ∧
          ∀ x, Memory.read m x = if x = a then some v else Memory.read s.host.din x) ∧
      (s.params.posFits n = true →
        hostMove (.setDinLen n) s = .next { s with host := { s.host with dinLen := n } }) ∧
      (s.params.posFits n = false → hostMove (.setDinLen n) s = .refused .lenBitsExceeded))

/-! ### Invariants -/

/-- The machine's invariant, which every step keeps: spaces canonical and outputs dense, FIFO stores within capacity, positions
within the input, one engine BUSY at most, cause and status agreeing, SCOMP never in FAULT, an IDLE engine as reset left it,
everything within the bounds. -/
def Obligations.InvariantKept : Prop :=
  ∀ s t : State, Inv s → step s = .next t → Inv t

/-- The invariant holds at reset. -/
def Obligations.InvariantAtReset : Prop := Inv State.reset

/-- Every host move the spec allows keeps the invariant. -/
def Obligations.HostMovesKeepInvariant : Prop :=
  ∀ (m : HostMove) (s t : State), Inv s → hostMove m s = .next t → Inv t
end

