-- ==== Sys2Proof/Laws/State.lean ====
section
/-! SUPPORT. What each named update of the state does to each part of it, all true by unfolding once: no later proof unfolds a
record update. -/

namespace Sys2Proof.Machine

variable (s : State) (c : Scomp) (d : Sdecomp) (h : HostSide) (bs : List Byte) (v : Byte) (n : Nat) (e : Cause)

/-! ### SDECOMP's updates -/

@[simp] theorem Sdecomp.append_cur : (d.append bs).cur = d.cur := rfl
@[simp] theorem Sdecomp.append_dout : (d.append bs).dout = Memory.writeBytes d.dout d.doutLen bs := rfl
@[simp] theorem Sdecomp.append_doutLen : (d.append bs).doutLen = d.doutLen + bs.length := rfl
@[simp] theorem Sdecomp.append_st : (d.append bs).st = d.st := rfl
@[simp] theorem Sdecomp.append_cause : (d.append bs).cause = d.cause := rfl

@[simp] theorem Sdecomp.advance_cur : (d.advance n).cur = d.cur + n := rfl
@[simp] theorem Sdecomp.advance_dout : (d.advance n).dout = d.dout := rfl
@[simp] theorem Sdecomp.advance_doutLen : (d.advance n).doutLen = d.doutLen := rfl
@[simp] theorem Sdecomp.advance_st : (d.advance n).st = d.st := rfl
@[simp] theorem Sdecomp.advance_cause : (d.advance n).cause = d.cause := rfl
@[simp] theorem Sdecomp.advance_doutBytes : (d.advance n).doutBytes = d.doutBytes := rfl

/-! ### SCOMP's updates -/

@[simp] theorem Scomp.append_w : (c.append bs).w = c.w := rfl
@[simp] theorem Scomp.append_b : (c.append bs).b = c.b := rfl
@[simp] theorem Scomp.append_rd : (c.append bs).rd = c.rd := rfl
@[simp] theorem Scomp.append_cout : (c.append bs).cout = Memory.writeBytes c.cout c.coutLen bs := rfl
@[simp] theorem Scomp.append_coutLen : (c.append bs).coutLen = c.coutLen + bs.length := rfl
@[simp] theorem Scomp.append_st : (c.append bs).st = c.st := rfl
@[simp] theorem Scomp.append_cause : (c.append bs).cause = c.cause := rfl

@[simp] theorem Scomp.push_w : (c.push v).w = windowPush c.w v := rfl
@[simp] theorem Scomp.push_b : (c.push v).b = c.b := rfl
@[simp] theorem Scomp.push_rd : (c.push v).rd = c.rd := rfl
@[simp] theorem Scomp.push_cout : (c.push v).cout = c.cout := rfl
@[simp] theorem Scomp.push_coutLen : (c.push v).coutLen = c.coutLen := rfl
@[simp] theorem Scomp.push_st : (c.push v).st = c.st := rfl
@[simp] theorem Scomp.push_cause : (c.push v).cause = c.cause := rfl

@[simp] theorem Scomp.refill_w : (c.refill h n).w = c.w := rfl
@[simp] theorem Scomp.refill_b :
    (c.refill h n).b = c.b ++ Memory.readBytes .cin h.cin c.rd (min n (h.cinLen - c.rd)) := rfl
@[simp] theorem Scomp.refill_rd : (c.refill h n).rd = c.rd + min n (h.cinLen - c.rd) := rfl
@[simp] theorem Scomp.refill_cout : (c.refill h n).cout = c.cout := rfl
@[simp] theorem Scomp.refill_coutLen : (c.refill h n).coutLen = c.coutLen := rfl
@[simp] theorem Scomp.refill_st : (c.refill h n).st = c.st := rfl
@[simp] theorem Scomp.refill_cause : (c.refill h n).cause = c.cause := rfl

/-! ### Fault entry, strobes, reset -/

@[simp] theorem State.raiseDecomp_params : (s.raiseDecomp e).params = s.params := rfl
@[simp] theorem State.raiseDecomp_host : (s.raiseDecomp e).host = s.host := rfl
@[simp] theorem State.raiseDecomp_comp : (s.raiseDecomp e).comp = s.comp := rfl
@[simp] theorem State.raiseDecomp_decomp :
    (s.raiseDecomp e).decomp = { s.decomp with cause := e, st := .fault } := rfl

@[simp] theorem State.raiseComp_params : (s.raiseComp e).params = s.params := rfl
@[simp] theorem State.raiseComp_host : (s.raiseComp e).host = s.host := rfl
@[simp] theorem State.raiseComp_comp : (s.raiseComp e).comp = { s.comp with cause := e, st := .fault } := rfl
@[simp] theorem State.raiseComp_decomp : (s.raiseComp e).decomp = s.decomp := rfl

@[simp] theorem State.dropStrobes_params : s.dropStrobes.params = s.params := rfl
@[simp] theorem State.dropStrobes_host :
    s.dropStrobes.host = { s.host with compStart := false, decompStart := false } := rfl
@[simp] theorem State.dropStrobes_comp : s.dropStrobes.comp = s.comp := rfl
@[simp] theorem State.dropStrobes_decomp : s.dropStrobes.decomp = s.decomp := rfl
@[simp] theorem State.dropStrobes_busy : s.dropStrobes.busy = s.busy := rfl

@[simp] theorem State.applyReset_params : s.applyReset.params = s.params := rfl
@[simp] theorem State.applyReset_host :
    s.applyReset.host = { s.host with compStart := false, decompStart := false } := rfl
@[simp] theorem State.applyReset_comp : s.applyReset.comp = Scomp.reset := rfl
@[simp] theorem State.applyReset_decomp : s.applyReset.decomp = Sdecomp.reset := rfl

/-! ### Termination tests -/

@[simp] theorem State.settleDecomp_params : s.settleDecomp.params = s.params := by
  unfold State.settleDecomp; split <;> rfl
@[simp] theorem State.settleDecomp_host : s.settleDecomp.host = s.host := by
  unfold State.settleDecomp; split <;> rfl
@[simp] theorem State.settleDecomp_comp : s.settleDecomp.comp = s.comp := by
  unfold State.settleDecomp; split <;> rfl
@[simp] theorem State.settleDecomp_cur : s.settleDecomp.decomp.cur = s.decomp.cur := by
  unfold State.settleDecomp; split <;> rfl
@[simp] theorem State.settleDecomp_dout : s.settleDecomp.decomp.dout = s.decomp.dout := by
  unfold State.settleDecomp; split <;> rfl
@[simp] theorem State.settleDecomp_doutLen : s.settleDecomp.decomp.doutLen = s.decomp.doutLen := by
  unfold State.settleDecomp; split <;> rfl
@[simp] theorem State.settleDecomp_cause : s.settleDecomp.decomp.cause = s.decomp.cause := by
  unfold State.settleDecomp; split <;> rfl
/-- A BUSY SDECOMP is DONE after the test exactly when the cursor has reached the end (R160). -/
theorem State.settleDecomp_busy (h : s.decomp.st = .busy) :
    (s.decomp.cur < s.host.dinLen → s.settleDecomp = s) ∧
    (¬ s.decomp.cur < s.host.dinLen → s.settleDecomp = { s with decomp := { s.decomp with st := .done } }) := by
  unfold State.settleDecomp State.decompMore
  constructor <;> intro h' <;> simp [h, h']
theorem State.settleDecomp_stopped (h : s.decomp.st ≠ .busy) : s.settleDecomp = s := by
  unfold State.settleDecomp
  simp [h]

@[simp] theorem State.settleComp_params : s.settleComp.params = s.params := by
  unfold State.settleComp; split <;> rfl
@[simp] theorem State.settleComp_host : s.settleComp.host = s.host := by
  unfold State.settleComp; split <;> rfl
@[simp] theorem State.settleComp_decomp : s.settleComp.decomp = s.decomp := by
  unfold State.settleComp; split <;> rfl
@[simp] theorem State.settleComp_w : s.settleComp.comp.w = s.comp.w := by
  unfold State.settleComp; split <;> rfl
@[simp] theorem State.settleComp_b : s.settleComp.comp.b = s.comp.b := by
  unfold State.settleComp; split <;> rfl
@[simp] theorem State.settleComp_rd : s.settleComp.comp.rd = s.comp.rd := by
  unfold State.settleComp; split <;> rfl
@[simp] theorem State.settleComp_cout : s.settleComp.comp.cout = s.comp.cout := by
  unfold State.settleComp; split <;> rfl
@[simp] theorem State.settleComp_coutLen : s.settleComp.comp.coutLen = s.comp.coutLen := by
  unfold State.settleComp; split <;> rfl
@[simp] theorem State.settleComp_cause : s.settleComp.comp.cause = s.comp.cause := by
  unfold State.settleComp; split <;> rfl
/-- A BUSY SCOMP is DONE after the test exactly when the buffer is empty (R134). -/
theorem State.settleComp_busy (h : s.comp.st = .busy) :
    (s.comp.b ≠ [] → s.settleComp = s) ∧
    (s.comp.b = [] → s.settleComp = { s with comp := { s.comp with st := .done } }) := by
  unfold State.settleComp State.compMore
  constructor <;> intro h' <;> simp [h, h']
theorem State.settleComp_stopped (h : s.comp.st ≠ .busy) : s.settleComp = s := by
  unfold State.settleComp
  simp [h]

end Sys2Proof.Machine
end

