-- ==== Sys2Proof/Laws/Memory.lean ====
section
/-! SUPPORT. The laws of a byte space: read after write, the canonical form kept by every operation, and what a sequence of
positions reads as after an append. -/

namespace Sys2Proof.Machine

/-! ### Read after write -/

@[simp] theorem Memory.read_nil (a : Nat) : Memory.read [] a = none := rfl

theorem Memory.read_write (m : Memory) (a x : Nat) (v : Byte) :
    Memory.read (Memory.write m a v) x = if x = a then some v else Memory.read m x := by
  induction m with
  | nil => simp [Memory.write, Memory.read, eq_comm]
  | cons cell rest ih =>
    unfold Memory.write
    split
    · simp [Memory.read, eq_comm]
    · split
      · rename_i h
        subst h
        by_cases hx : x = cell.1 <;> simp [Memory.read, hx, eq_comm]
      · rename_i h
        by_cases hx : cell.1 = x
        · have : x ≠ a := by omega
          simp [Memory.read, hx, this]
        · simp [Memory.read, hx, ih]

@[simp] theorem Memory.read_write_same (m : Memory) (a : Nat) (v : Byte) :
    Memory.read (Memory.write m a v) a = some v := by simp [Memory.read_write]

theorem Memory.byteAt_write (sp : Space) (m : Memory) (a x : Nat) (v : Byte) :
    Memory.byteAt sp (Memory.write m a v) x = if x = a then v else Memory.byteAt sp m x := by
  unfold Memory.byteAt
  rw [Memory.read_write]
  split <;> rfl

/-- Reading after writing `bs` at `a`: the written bytes inside `[a, a + |bs|)`, the old bytes outside. -/
theorem Memory.read_writeBytes (m : Memory) (a x : Nat) (bs : List Byte) :
    Memory.read (Memory.writeBytes m a bs) x =
      if a ≤ x ∧ x < a + bs.length then bs[x - a]? else Memory.read m x := by
  induction bs generalizing m a with
  | nil =>
    rw [if_neg (by simp)]
    rfl
  | cons v rest ih =>
    simp only [Memory.writeBytes, ih, Memory.read_write, List.length_cons]
    by_cases h1 : a + 1 ≤ x ∧ x < a + 1 + rest.length
    · have h2 : a ≤ x ∧ x < a + (rest.length + 1) := by omega
      have h3 : x - a = (x - (a + 1)) + 1 := by omega
      simp [h1, h2, h3]
    · by_cases h4 : x = a
      · subst h4
        simp
      · have h5 : ¬ (a ≤ x ∧ x < a + (rest.length + 1)) := by omega
        rw [if_neg h1, if_neg h4, if_neg h5]

theorem Memory.byteAt_writeBytes (sp : Space) (m : Memory) (a x : Nat) (bs : List Byte) :
    Memory.byteAt sp (Memory.writeBytes m a bs) x =
      if h : a ≤ x ∧ x < a + bs.length then bs[x - a]'(by omega) else Memory.byteAt sp m x := by
  unfold Memory.byteAt
  rw [Memory.read_writeBytes]
  split
  · rename_i h
    have : x - a < bs.length := by omega
    simp [this]
  · rfl

/-! ### Sequences of positions -/

@[simp] theorem Memory.readBytes_zero (sp : Space) (m : Memory) (a : Nat) : Memory.readBytes sp m a 0 = [] := rfl

@[simp] theorem Memory.readBytes_length (sp : Space) (m : Memory) (a n : Nat) :
    (Memory.readBytes sp m a n).length = n := by
  induction n generalizing a with
  | zero => rfl
  | succ n ih => simp [Memory.readBytes, ih]

theorem Memory.readBytes_getElem? (sp : Space) (m : Memory) (a n k : Nat) :
    (Memory.readBytes sp m a n)[k]? = if k < n then some (Memory.byteAt sp m (a + k)) else none := by
  induction n generalizing a k with
  | zero => simp
  | succ n ih =>
    cases k with
    | zero => simp [Memory.readBytes]
    | succ k =>
      simp only [Memory.readBytes, List.getElem?_cons_succ, ih]
      have : a + 1 + k = a + (k + 1) := by omega
      simp [this]

theorem Memory.readBytes_congr {sp : Space} {m m' : Memory} {a n : Nat}
    (h : ∀ x, a ≤ x → x < a + n → Memory.byteAt sp m x = Memory.byteAt sp m' x) :
    Memory.readBytes sp m a n = Memory.readBytes sp m' a n := by
  apply List.ext_getElem?
  intro k
  simp only [Memory.readBytes_getElem?]
  split
  · rename_i hk
    rw [h (a + k) (by omega) (by omega)]
  · rfl

theorem Memory.readBytes_add (sp : Space) (m : Memory) (a n k : Nat) :
    Memory.readBytes sp m a (n + k) = Memory.readBytes sp m a n ++ Memory.readBytes sp m (a + n) k := by
  induction n generalizing a with
  | zero => simp
  | succ n ih =>
    have : n + 1 + k = (n + k) + 1 := by omega
    rw [this]
    simp only [Memory.readBytes, ih, List.cons_append]
    have : a + 1 + n = a + (n + 1) := by omega
    rw [this]

theorem Memory.readBytes_take (sp : Space) (m : Memory) (a n k : Nat) (h : k ≤ n) :
    (Memory.readBytes sp m a n).take k = Memory.readBytes sp m a k := by
  obtain ⟨j, rfl⟩ := Nat.exists_eq_add_of_le h
  rw [Memory.readBytes_add, List.take_left' (by simp)]

theorem Memory.readBytes_drop (sp : Space) (m : Memory) (a n k : Nat) (h : k ≤ n) :
    (Memory.readBytes sp m a n).drop k = Memory.readBytes sp m (a + k) (n - k) := by
  obtain ⟨j, rfl⟩ := Nat.exists_eq_add_of_le h
  rw [Memory.readBytes_add, List.drop_left' (by simp)]
  simp

/-- After `Append` a space reads as before with the appended bytes behind. -/
theorem Memory.readBytes_append (sp : Space) (m : Memory) (n : Nat) (bs : List Byte) :
    Memory.readBytes sp (Memory.writeBytes m n bs) 0 (n + bs.length) = Memory.readBytes sp m 0 n ++ bs := by
  rw [Memory.readBytes_add]
  congr 1
  · apply Memory.readBytes_congr
    intro x _ hx
    rw [Memory.byteAt_writeBytes, dif_neg (by omega)]
  · apply List.ext_getElem?
    intro k
    rw [Memory.readBytes_getElem?]
    split
    · rename_i hk
      rw [Memory.byteAt_writeBytes, dif_pos (by omega)]
      simp [hk]
    · rename_i hk
      simp at hk
      simp [hk]

@[simp] theorem Sdecomp.doutBytes_length (d : Sdecomp) : d.doutBytes.length = d.doutLen := by
  simp [Sdecomp.doutBytes]

@[simp] theorem Scomp.coutBytes_length (c : Scomp) : c.coutBytes.length = c.coutLen := by
  simp [Scomp.coutBytes]

@[simp] theorem HostSide.cinBytes_length (h : HostSide) : h.cinBytes.length = h.cinLen := by
  simp [HostSide.cinBytes]

@[simp] theorem HostSide.dinBytes_length (h : HostSide) : h.dinBytes.length = h.dinLen := by
  simp [HostSide.dinBytes]

@[simp] theorem Sdecomp.append_doutBytes (d : Sdecomp) (bs : List Byte) :
    (d.append bs).doutBytes = d.doutBytes ++ bs :=
  Memory.readBytes_append .dout d.dout d.doutLen bs

@[simp] theorem Scomp.append_coutBytes (c : Scomp) (bs : List Byte) :
    (c.append bs).coutBytes = c.coutBytes ++ bs :=
  Memory.readBytes_append .cout c.cout c.coutLen bs

/-- A position of the history is the output's byte there. -/
theorem Sdecomp.readDout_eq (d : Sdecomp) (a : Nat) (h : a < d.doutLen) : d.readDout a = d.doutBytes.getD a 0 := by
  rw [List.getD_eq_getElem?_getD, Sdecomp.doutBytes, Memory.readBytes_getElem?, if_pos h, Nat.zero_add]
  rfl

/-! ### The canonical form -/

theorem Memory.wf_cons (cell : Host.Cell) (rest : Memory) :
    Memory.wf (cell :: rest) = true ↔ (∀ other ∈ rest, cell.1 < other.1) ∧ Memory.wf rest = true := by
  simp [Memory.wf]

theorem Memory.mem_write {m : Memory} {a : Nat} {v : Byte} {cell : Host.Cell} (h : cell ∈ Memory.write m a v) :
    cell = (a, v) ∨ cell ∈ m := by
  induction m with
  | nil => simpa [Memory.write] using h
  | cons hd rest ih =>
    unfold Memory.write at h
    split at h
    · simpa using h
    · split at h
      · simp only [List.mem_cons] at h ⊢
        tauto
      · simp only [List.mem_cons] at h ⊢
        rcases h with h | h
        · tauto
        · have := ih h
          tauto

/-- A write keeps the canonical form. -/
theorem Memory.wf_write {m : Memory} (h : Memory.wf m = true) (a : Nat) (v : Byte) :
    Memory.wf (Memory.write m a v) = true := by
  induction m with
  | nil => rfl
  | cons cell rest ih =>
    obtain ⟨h1, h2⟩ := (Memory.wf_cons cell rest).1 h
    unfold Memory.write
    split
    · rename_i ha
      refine (Memory.wf_cons _ _).2 ⟨?_, h⟩
      intro other ho
      rcases List.mem_cons.1 ho with rfl | ho
      · exact ha
      · exact Nat.lt_trans ha (h1 other ho)
    · split
      · rename_i ha
        exact (Memory.wf_cons _ _).2 ⟨fun other ho => by have := h1 other ho; simp; omega, h2⟩
      · refine (Memory.wf_cons _ _).2 ⟨?_, ih h2⟩
        intro other ho
        rcases Memory.mem_write ho with rfl | ho
        · simp; omega
        · exact h1 other ho

/-- Writing a sequence keeps the canonical form. -/
theorem Memory.wf_writeBytes {m : Memory} (h : Memory.wf m = true) (a : Nat) (bs : List Byte) :
    Memory.wf (Memory.writeBytes m a bs) = true := by
  induction bs generalizing m a with
  | nil => exact h
  | cons v rest ih => exact ih (Memory.wf_write h a v) (a + 1)

/-! ### Output spaces -/

theorem Memory.dense_iff (m : Memory) (n : Nat) : Memory.dense m n = true ↔ m.map Prod.fst = List.range n := by
  simp [Memory.dense]

/-- Writing above every listed address appends the cell. -/
theorem Memory.write_above {m : Memory} {a : Nat} (h : ∀ cell ∈ m, cell.1 < a) (v : Byte) :
    Memory.write m a v = m ++ [(a, v)] := by
  induction m with
  | nil => rfl
  | cons cell rest ih =>
    have h1 : cell.1 < a := h cell (by simp)
    unfold Memory.write
    rw [if_neg (by omega), if_neg (by omega), ih (fun c hc => h c (by simp [hc]))]
    rfl

/-- One append keeps an output space dense. -/
theorem Memory.dense_write {m : Memory} {n : Nat} (h : Memory.dense m n = true) (v : Byte) :
    Memory.dense (Memory.write m n v) (n + 1) = true := by
  rw [Memory.dense_iff] at h ⊢
  rw [Memory.write_above]
  · simp [h, List.range_succ]
  · intro cell hc
    have : cell.1 ∈ m.map Prod.fst := List.mem_map_of_mem hc
    rw [h] at this
    exact List.mem_range.1 this

/-- `Append` keeps an output space dense. -/
theorem Memory.dense_writeBytes {m : Memory} {n : Nat} (h : Memory.dense m n = true) (bs : List Byte) :
    Memory.dense (Memory.writeBytes m n bs) (n + bs.length) = true := by
  induction bs generalizing m n with
  | nil => exact h
  | cons v rest ih =>
    have := ih (Memory.dense_write h v)
    have e : n + (v :: rest).length = n + 1 + rest.length := by simp; omega
    rw [e]
    exact this

theorem Memory.wf_of_sorted {m : Memory} (h : (m.map Prod.fst).Pairwise (· < ·)) : Memory.wf m = true := by
  induction m with
  | nil => rfl
  | cons cell rest ih =>
    simp only [List.map_cons, List.pairwise_cons] at h
    refine (Memory.wf_cons _ _).2 ⟨fun other ho => h.1 _ (List.mem_map_of_mem ho), ih h.2⟩

/-- A dense space is in canonical form. -/
theorem Memory.wf_of_dense {m : Memory} {n : Nat} (h : Memory.dense m n = true) : Memory.wf m = true := by
  apply Memory.wf_of_sorted
  rw [(Memory.dense_iff m n).1 h]
  exact List.pairwise_lt_range

/-- The memory of the reset state is in canonical form. -/
theorem reset_memory_wf : Memory.wf State.reset.host.cin = true ∧ Memory.wf State.reset.host.din = true ∧
    Memory.wf State.reset.comp.cout = true ∧ Memory.wf State.reset.decomp.dout = true :=
  ⟨rfl, rfl, rfl, rfl⟩

end Sys2Proof.Machine
end

