-- ==== Sys2Proof/Laws/Decode.lean ====
section
/-! SUPPORT. The format's numbers, and the arithmetic reading of the bit fields: every field operation said once as division
and remainder. -/

namespace Sys2Proof

@[simp] theorem Config.esc_eq : Config.esc = 0xCC := by decide
@[simp] theorem Config.pfb_eq : Config.pfb = 2 := by decide
@[simp] theorem Config.ob_eq : Config.ob = 12 := by decide
@[simp] theorem Config.lb_eq : Config.lb = 4 := by decide
@[simp] theorem Config.sm_eq : Config.sm = 4 := by decide
@[simp] theorem Config.lm_eq : Config.lm = 19 := by decide
@[simp] theorem Config.wsize_eq : Config.wsize = 4096 := by decide
@[simp] theorem Config.bsize_eq : Config.bsize = 29 := by decide

/-! ### Bit fields as numbers -/

theorem pointerField_toNat (b1 b2 : Byte) : (pointerField b1 b2).toNat = b1.toNat * 256 + b2.toNat := by
  have h : b2.toNat < 2 ^ 8 := b2.isLt
  rw [pointerField, BitVec.toNat_append, ← Nat.shiftLeft_add_eq_or_of_lt h, Nat.shiftLeft_eq]

theorem fieldOffset_toNat (f : BitVec 16) : (fieldOffset f).toNat = f.toNat / 16 := by
  have h : f.toNat < 2 ^ 16 := f.isLt
  rw [fieldOffset, BitVec.extractLsb'_toNat, Nat.shiftRight_eq_div_pow]
  exact Nat.mod_eq_of_lt (by omega)

theorem fieldLenbias_toNat (f : BitVec 16) : (fieldLenbias f).toNat = f.toNat % 16 := by
  rw [fieldLenbias, BitVec.extractLsb'_toNat, Nat.shiftRight_zero]

theorem appendField_toNat (o : BitVec 12) (l : BitVec 4) : (o ++ l).toNat = o.toNat * 16 + l.toNat := by
  have h : l.toNat < 2 ^ 4 := l.isLt
  rw [BitVec.toNat_append, ← Nat.shiftLeft_add_eq_or_of_lt h, Nat.shiftLeft_eq]

theorem highByte_toNat (f : BitVec 16) : (f.extractLsb' 8 8).toNat = f.toNat / 256 := by
  have h : f.toNat < 2 ^ 16 := f.isLt
  rw [BitVec.extractLsb'_toNat, Nat.shiftRight_eq_div_pow]
  exact Nat.mod_eq_of_lt (by omega)

theorem lowByte_toNat (f : BitVec 16) : (f.extractLsb' 0 8).toNat = f.toNat % 256 := by
  rw [BitVec.extractLsb'_toNat, Nat.shiftRight_zero]

/-- The two field bytes put together again are the field. -/
theorem pointerField_bytes (f : BitVec 16) : pointerField (f.extractLsb' 8 8) (f.extractLsb' 0 8) = f := by
  apply BitVec.eq_of_toNat_eq
  rw [pointerField_toNat, highByte_toNat, lowByte_toNat]
  omega

/-- The two operand fields put together again are the field. -/
theorem append_fields (f : BitVec 16) : fieldOffset f ++ fieldLenbias f = f := by
  apply BitVec.eq_of_toNat_eq
  rw [appendField_toNat, fieldOffset_toNat, fieldLenbias_toNat]
  omega

theorem fieldOffset_append (o : BitVec 12) (l : BitVec 4) : fieldOffset (o ++ l) = o := by
  have h : l.toNat < 2 ^ 4 := l.isLt
  apply BitVec.eq_of_toNat_eq
  rw [fieldOffset_toNat, appendField_toNat]
  omega

theorem fieldLenbias_append (o : BitVec 12) (l : BitVec 4) : fieldLenbias (o ++ l) = l := by
  have h : l.toNat < 2 ^ 4 := l.isLt
  apply BitVec.eq_of_toNat_eq
  rw [fieldLenbias_toNat, appendField_toNat]
  omega

/-- A field is zero exactly when both its bytes are. -/
theorem bytes_zero_iff (f : BitVec 16) : f.extractLsb' 8 8 = 0 ∧ f.extractLsb' 0 8 = 0 ↔ f = 0 := by
  constructor
  · rintro ⟨h1, h2⟩
    rw [← pointerField_bytes f, h1, h2]
    rfl
  · rintro rfl
    exact ⟨rfl, rfl⟩

/-- A field is zero exactly when both its operands are. -/
theorem fields_zero_iff (o : BitVec 12) (l : BitVec 4) : o ++ l = (0 : BitVec 16) ↔ o = 0 ∧ l = 0 := by
  constructor
  · intro h
    exact ⟨by rw [← fieldOffset_append o l, h]; rfl, by rw [← fieldLenbias_append o l, h]; rfl⟩
  · rintro ⟨rfl, rfl⟩
    rfl

/-! ### The decoder -/

/-- A first byte other than the marker is a LIT (R71, R75). -/
theorem decode_lit {v : Byte} (h : v ≠ 0xCC) (rest : List Byte) : decode (v :: rest) = .ok (.lit v, rest) :=
  if_pos (show v ≠ Config.esc from h)

/-- The marker with two bytes after it is ESCLIT or a PTR (R75). -/
theorem decode_long (b1 b2 : Byte) (rest : List Byte) : decode (0xCC :: b1 :: b2 :: rest) =
    if b1 = 0 ∧ b2 = 0 then .ok (.esclit, rest)
    else .ok (.ptr (fieldOffset (pointerField b1 b2)) (fieldLenbias (pointerField b1 b2)), rest) := by
  simp [decode]

/-- What the decoder can answer. -/
theorem decode_cases (bs rest : List Byte) (i : Instr) (h : decode bs = .ok (i, rest)) :
    (∃ v, v ≠ 0xCC ∧ bs = v :: rest ∧ i = .lit v) ∨ (bs = 0xCC :: 0 :: 0 :: rest ∧ i = .esclit) ∨
    (∃ b1 b2, ¬ (b1 = 0 ∧ b2 = 0) ∧ bs = 0xCC :: b1 :: b2 :: rest ∧
      i = .ptr (fieldOffset (pointerField b1 b2)) (fieldLenbias (pointerField b1 b2))) := by
  cases bs with
  | nil => cases h
  | cons b0 tail =>
    by_cases hb : b0 = 0xCC
    · subst hb
      match tail, h with
      | [], h => simp [decode] at h
      | [b1], h => simp [decode] at h
      | b1 :: b2 :: r, h =>
        rw [decode_long] at h
        split at h
        · rename_i hz
          simp only [Except.ok.injEq, Prod.mk.injEq] at h
          obtain ⟨rfl, rfl⟩ := h
          exact .inr (.inl ⟨by rw [hz.1, hz.2], rfl⟩)
        · rename_i hz
          simp only [Except.ok.injEq, Prod.mk.injEq] at h
          obtain ⟨rfl, rfl⟩ := h
          exact .inr (.inr ⟨b1, b2, hz, rfl, rfl⟩)
    · rw [decode_lit hb] at h
      simp only [Except.ok.injEq, Prod.mk.injEq] at h
      obtain ⟨rfl, rfl⟩ := h
      exact .inl ⟨b0, hb, rfl, rfl⟩

/-- When the decoder refuses. -/
theorem decode_error_cases (bs : List Byte) (e : DecodeError) (h : decode bs = .error e) :
    (bs = [] ∧ e = .noToken) ∨ (∃ t, bs = 0xCC :: t ∧ t.length < 2 ∧ e = .truncatedInput) := by
  cases bs with
  | nil => exact .inl ⟨rfl, by cases h; rfl⟩
  | cons b0 tail =>
    by_cases hb : b0 = 0xCC
    · subst hb
      match tail, h with
      | [], h => simp [decode] at h; exact .inr ⟨_, rfl, by simp, h.symm⟩
      | [b1], h => simp [decode] at h; exact .inr ⟨_, rfl, by simp, h.symm⟩
      | b1 :: b2 :: r, h => rw [decode_long] at h; split at h <;> cases h
    · rw [decode_lit hb] at h; cases h

namespace Machine

@[simp] theorem ptrOffset_eq (o : BitVec 12) : ptrOffset o = o.toNat := rfl
@[simp] theorem ptrLength_eq (l : BitVec 4) : ptrLength l = l.toNat + 4 := rfl

theorem ptrOffset_lt (o : BitVec 12) : ptrOffset o < 4096 := o.isLt

theorem ptrLength_bounds (l : BitVec 4) : 4 ≤ ptrLength l ∧ ptrLength l ≤ 19 := by
  have h : l.toNat < 2 ^ 4 := l.isLt
  rw [ptrLength_eq]
  omega

@[simp] theorem ptrOutOfRange_iff (o : BitVec 12) (n : Nat) : ptrOutOfRange o n = true ↔ n < o.toNat + 1 := by
  simp [ptrOutOfRange]

@[simp] theorem ptrOverlaps_iff (o : BitVec 12) (l : BitVec 4) :
    ptrOverlaps o l = true ↔ o.toNat + 1 < l.toNat + 4 := by
  simp [ptrOverlaps]

/-! ### PCODEC -/

/-- ENCODE answers bytes exactly on operands in bounds. -/
theorem pcodecEncode_ok {r : BackRef} (ho : r.offset < 4096) (hl : 4 ≤ r.length ∧ r.length ≤ 19) :
    pcodecEncode r = .ok
      { b0 := 0xCC
        b1 := BitVec.ofNat 8 ((r.offset * 16 + (r.length - 4)) / 256)
        b2 := BitVec.ofNat 8 ((r.offset * 16 + (r.length - 4)) % 256) } := by
  simp [pcodecEncode, packField, ho, hl]

/-- What ENCODE can answer. -/
theorem pcodecEncode_cases (r : BackRef) :
    (r.offset < 4096 ∧ 4 ≤ r.length ∧ r.length ≤ 19 ∧ ∃ t, pcodecEncode r = .ok t) ∨
    (¬ (r.offset < 4096 ∧ 4 ≤ r.length ∧ r.length ≤ 19) ∧ pcodecEncode r = .error .invalidParameters) := by
  by_cases ho : r.offset < 4096
  · by_cases hl : 4 ≤ r.length ∧ r.length ≤ 19
    · exact .inl ⟨ho, hl.1, hl.2, _, pcodecEncode_ok ho hl⟩
    · exact .inr ⟨fun h => hl h.2, by simp [pcodecEncode, ho, hl]⟩
  · exact .inr ⟨fun h => ho h.1, by simp [pcodecEncode, ho]⟩

end Machine

end Sys2Proof
end

