-- ==== Sys2Proof/Laws/Mfind.lean ====
section
/-! SUPPORT. What the match finder can answer: the run of a candidate and the place the scan stops. -/

namespace Sys2Proof.Machine

open Safety

theorem commonRun_le (limit : Nat) (xs ys : List Byte) :
    commonRun limit xs ys ≤ limit ∧ commonRun limit xs ys ≤ xs.length ∧ commonRun limit xs ys ≤ ys.length := by
  induction limit generalizing xs ys with
  | zero => simp [commonRun]
  | succ limit ih =>
    cases xs with
    | nil => simp [commonRun]
    | cons x xs =>
      cases ys with
      | nil => simp [commonRun]
      | cons y ys =>
        have := ih xs ys
        simp only [commonRun, List.length_cons]
        split <;> omega

/-- Inside the run the two sequences agree. -/
theorem commonRun_agree (limit : Nat) (xs ys : List Byte) (j : Nat) (h : j < commonRun limit xs ys) :
    xs[j]? = ys[j]? := by
  induction limit generalizing xs ys j with
  | zero => simp [commonRun] at h
  | succ limit ih =>
    cases xs with
    | nil => simp [commonRun] at h
    | cons x xs =>
      cases ys with
      | nil => simp [commonRun] at h
      | cons y ys =>
        unfold commonRun at h
        split at h
        · rename_i hxy
          cases j with
          | zero => simp [hxy]
          | succ j => simpa using ih xs ys j (by omega)
        · omega

/-- The run ends at the limit, at an end, or at a mismatch. -/
theorem commonRun_stop (limit : Nat) (xs ys : List Byte) :
    commonRun limit xs ys = limit ∨ commonRun limit xs ys = xs.length ∨ commonRun limit xs ys = ys.length ∨
      xs[commonRun limit xs ys]? ≠ ys[commonRun limit xs ys]? := by
  induction limit generalizing xs ys with
  | zero => simp [commonRun]
  | succ limit ih =>
    cases xs with
    | nil => simp [commonRun]
    | cons x xs =>
      cases ys with
      | nil => simp [commonRun]
      | cons y ys =>
        unfold commonRun
        split
        · have := ih xs ys
          rw [List.getElem?_cons_succ, List.getElem?_cons_succ, List.length_cons, List.length_cons]
          rcases this with h | h | h | h
          · exact .inl (by omega)
          · exact .inr (.inl (by omega))
          · exact .inr (.inr (.inl (by omega)))
          · exact .inr (.inr (.inr h))
        · rename_i hxy
          simp [hxy]

/-- A run is at least `r` long when `r` bytes of both agree and the limit allows it. -/
theorem commonRun_ge (limit : Nat) (xs ys : List Byte) (r : Nat) (hr : r ≤ limit)
    (h : ∀ j, j < r → ∃ v, xs[j]? = some v ∧ ys[j]? = some v) : r ≤ commonRun limit xs ys := by
  induction limit generalizing xs ys r with
  | zero => omega
  | succ limit ih =>
    cases r with
    | zero => omega
    | succ r =>
      cases xs with
      | nil => obtain ⟨v, h1, _⟩ := h 0 (by omega); simp at h1
      | cons x xs =>
        cases ys with
        | nil => obtain ⟨v, _, h2⟩ := h 0 (by omega); simp at h2
        | cons y ys =>
          have hxy : x = y := by
            obtain ⟨v, h1, h2⟩ := h 0 (by omega)
            simp at h1 h2
            rw [h1, h2]
          have := ih xs ys r (by omega) (fun j hj => by simpa using h (j + 1) (by omega))
          simp [commonRun, hxy]
          exact this

theorem isCandidate_iff (w b : List Byte) (i : Nat) :
    isCandidate w b i = true ↔ ∃ v, w[i]? = some v ∧ b[0]? = some v := by
  unfold isCandidate
  split
  · rename_i x y hx hy
    rw [hx, hy, beq_iff_eq]
    constructor
    · rintro rfl
      exact ⟨x, rfl, rfl⟩
    · rintro ⟨v, h1, h2⟩
      exact (Option.some.inj h1).trans (Option.some.inj h2).symm
  · rename_i h
    constructor
    · intro h'; cases h'
    · rintro ⟨v, h1, h2⟩
      exact (h v v h1 h2).elim

theorem matchRun_bounds (w b : List Byte) (i : Nat) :
    matchRun w b i ≤ 19 ∧ matchRun w b i ≤ w.length - i ∧ matchRun w b i ≤ b.length := by
  have := commonRun_le 19 (w.drop i) b
  simpa [matchRun] using this

theorem matchesAt_iff (w b : List Byte) (i : Nat) :
    (isCandidate w b i && decide (Config.sm ≤ matchRun w b i)) = true ↔ MatchesAt w b i := by
  rw [Bool.and_eq_true, decide_eq_true_iff]
  constructor
  · rintro ⟨_, h⟩ j hj
    have h : 4 ≤ matchRun w b i := h
    have hag := commonRun_agree 19 (w.drop i) b j (show j < matchRun w b i by omega)
    have hb := matchRun_bounds w b i
    have hjb : j < b.length := by omega
    refine ⟨b[j], ?_, by simp [hjb]⟩
    rw [List.getElem?_drop] at hag
    rw [hag]
    simp [hjb]
  · intro h
    constructor
    · rw [isCandidate_iff]
      exact h 0 (by omega)
    · refine commonRun_ge _ _ _ 4 (by simp) (fun j hj => ?_)
      simpa [List.getElem?_drop] using h j hj

/-- What the scan can answer: the highest position below `k` that is accepted, with its run; or none is. -/
theorem findBelow_cases (w b : List Byte) (k : Nat) :
    (∃ i, i < k ∧ MatchesAt w b i ∧ (∀ j, i < j → j < k → ¬ MatchesAt w b j) ∧
      findBelow w b k = some { offset := w.length - 1 - i, length := matchRun w b i }) ∨
    ((∀ j, j < k → ¬ MatchesAt w b j) ∧ findBelow w b k = none) := by
  induction k with
  | zero => exact .inr ⟨fun j hj => by omega, rfl⟩
  | succ k ih =>
    by_cases hk : MatchesAt w b k
    · refine .inl ⟨k, by omega, hk, fun j h1 h2 => by omega, ?_⟩
      unfold findBelow
      rw [if_pos ((matchesAt_iff w b k).2 hk)]
    · have e : findBelow w b (k + 1) = findBelow w b k := by
        conv_lhs => unfold findBelow
        rw [if_neg (fun h => hk ((matchesAt_iff w b k).1 h))]
      rw [e]
      rcases ih with ⟨i, hi, ha, hn, hf⟩ | ⟨hn, hf⟩
      · refine .inl ⟨i, by omega, ha, fun j h1 h2 => ?_, hf⟩
        rcases Nat.lt_succ_iff_lt_or_eq.1 h2 with h | rfl
        · exact hn j h1 h
        · exact hk
      · refine .inr ⟨fun j hj => ?_, hf⟩
        rcases Nat.lt_succ_iff_lt_or_eq.1 hj with h | rfl
        · exact hn j h
        · exact hk

/-- An accepted position lies at least `SM` bytes before the window's end. -/
theorem matchesAt_lt {w b : List Byte} {i : Nat} (h : MatchesAt w b i) : i + 3 < w.length := by
  obtain ⟨v, h1, _⟩ := h 3 (by omega)
  exact (List.getElem?_eq_some_iff.1 h1).1

end Sys2Proof.Machine
end

