-- ==== Sys2Proof/Laws/Ops.lean ====
section
/-! SUPPORT. One lemma per shared operation, saying everything it can do: the bounded write-backs, the copy of a PTR, the moves
between the FIFO stores. -/

namespace Sys2Proof.Machine

open Safety

/-! ### Write-back and the mapped outcome -/

theorem commitDecomp_next {s : State} {d : Sdecomp} (h : d.Fits s.params) :
    s.commitDecomp d = .next { s with decomp := d } := by
  unfold State.commitDecomp
  rw [if_pos h.1, if_pos (by rw [h.2.1, h.2.2]; rfl)]

theorem commitComp_next {s : State} {c : Scomp} (h : c.Fits s.params) :
    s.commitComp c = .next { s with comp := c } := by
  unfold State.commitComp
  rw [if_pos h.1, if_pos (by rw [h.2.1, h.2.2]; rfl)]

/-- Everything `commitDecomp` can answer: the write-back, or the refusal of the bound that is passed (R13). -/
theorem commitDecomp_cases (s : State) (d : Sdecomp) :
    (d.Fits s.params ∧ s.commitDecomp d = .next { s with decomp := d }) ∨
    (s.params.capFits d.doutLen = true ∧ (s.params.posFits d.doutLen = false ∨ s.params.posFits d.cur = false) ∧
      s.commitDecomp d = .refused .lenBitsExceeded) ∨
    (s.params.capFits d.doutLen = false ∧ s.commitDecomp d = .refused .outCapExceeded) := by
  unfold State.commitDecomp Sdecomp.Fits
  cases s.params.capFits d.doutLen <;> cases s.params.posFits d.doutLen <;> cases s.params.posFits d.cur <;> simp

/-- Everything `commitComp` can answer: the write-back, or the refusal of the bound that is passed (R13). -/
theorem commitComp_cases (s : State) (c : Scomp) :
    (c.Fits s.params ∧ s.commitComp c = .next { s with comp := c }) ∨
    (s.params.capFits c.coutLen = true ∧ (s.params.posFits c.coutLen = false ∨ s.params.posFits c.rd = false) ∧
      s.commitComp c = .refused .lenBitsExceeded) ∨
    (s.params.capFits c.coutLen = false ∧ s.commitComp c = .refused .outCapExceeded) := by
  unfold State.commitComp Scomp.Fits
  cases s.params.capFits c.coutLen <;> cases s.params.posFits c.coutLen <;> cases s.params.posFits c.rd <;> simp

theorem commitDecomp_eq_next {s t : State} {d : Sdecomp} (h : s.commitDecomp d = .next t) :
    d.Fits s.params ∧ t = { s with decomp := d } := by
  rcases commitDecomp_cases s d with ⟨hf, e⟩ | ⟨_, _, e⟩ | ⟨_, e⟩ <;> rw [e] at h
  · exact ⟨hf, (Host.Outcome.next.inj h).symm⟩
  · cases h
  · cases h

theorem commitComp_eq_next {s t : State} {c : Scomp} (h : s.commitComp c = .next t) :
    c.Fits s.params ∧ t = { s with comp := c } := by
  rcases commitComp_cases s c with ⟨hf, e⟩ | ⟨_, _, e⟩ | ⟨_, e⟩ <;> rw [e] at h
  · exact ⟨hf, (Host.Outcome.next.inj h).symm⟩
  · cases h
  · cases h

theorem mapNext_eq_next {f : State → State} {r : Result} {t : State} (h : mapNext f r = .next t) :
    ∃ u, r = .next u ∧ t = f u := by
  cases r with
  | next u => exact ⟨u, rfl, (Host.Outcome.next.inj h).symm⟩
  | fault r => cases h
  | refused r => cases h

/-- With `LEN_BITS` and `OUT_CAP` unbounded everything fits. -/
theorem posFits_unbounded {p : Config.Params} (h : p.lenBits = none) (n : Nat) : p.posFits n = true := by
  simp [Config.Params.posFits, h]

theorem capFits_unbounded {p : Config.Params} (h : p.outCap = none) (n : Nat) : p.capFits n = true := by
  simp [Config.Params.capFits, h]

@[simp] theorem unbounded_host (s : State) : (unbounded s).host = s.host := rfl
@[simp] theorem unbounded_comp (s : State) : (unbounded s).comp = s.comp := rfl
@[simp] theorem unbounded_decomp (s : State) : (unbounded s).decomp = s.decomp := rfl
@[simp] theorem unbounded_overlap (s : State) : (unbounded s).params.overlap = s.params.overlap := rfl
@[simp] theorem unbounded_busy (s : State) : (unbounded s).busy = s.busy := rfl
@[simp] theorem unbounded_dropStrobes (s : State) : (unbounded s).dropStrobes = unbounded s.dropStrobes := rfl
@[simp] theorem unbounded_compMore (s : State) : (unbounded s).compMore = s.compMore := rfl
@[simp] theorem unbounded_decompMore (s : State) : (unbounded s).decompMore = s.decompMore := rfl
@[simp] theorem unbounded_fetchBytes (s : State) : (unbounded s).fetchBytes = s.fetchBytes := rfl

/-- With the bounds taken away every write-back is made. -/
theorem commitDecomp_unbounded (s : State) (d : Sdecomp) :
    (unbounded s).commitDecomp d = .next { unbounded s with decomp := d } :=
  commitDecomp_next ⟨capFits_unbounded rfl _, posFits_unbounded rfl _, posFits_unbounded rfl _⟩

theorem commitComp_unbounded (s : State) (c : Scomp) :
    (unbounded s).commitComp c = .next { unbounded s with comp := c } :=
  commitComp_next ⟨capFits_unbounded rfl _, posFits_unbounded rfl _, posFits_unbounded rfl _⟩

/-! ### The copy of a PTR -/

theorem copyOut_length (out : List Byte) (n src : Nat) : (copyOut out n src).length = out.length + n := by
  induction n generalizing out src with
  | zero => rfl
  | succ n ih => simp [copyOut, ih]; omega

/-- The copy never changes what was there. -/
theorem copyOut_old (out : List Byte) (n src k : Nat) (h : k < out.length) : (copyOut out n src)[k]? = out[k]? := by
  induction n generalizing out src with
  | zero => rfl
  | succ n ih => rw [copyOut, ih _ _ (by simp; omega), List.getElem?_append_left h]

/-- The byte appended at iteration `k` is the byte at the source position, as the copy leaves it. -/
theorem copyOut_new (out : List Byte) (n src k : Nat) (hs : src < out.length) (hk : k < n) :
    (copyOut out n src)[out.length + k]? = (copyOut out n src)[src + k]? := by
  induction n generalizing out src k with
  | zero => omega
  | succ n ih =>
    cases k with
    | zero =>
      rw [copyOut, copyOut_old _ _ _ _ (by simp), copyOut_old _ _ _ _ (by simp; omega), Nat.add_zero, Nat.add_zero,
        List.getElem?_append_left hs]
      simp [hs]
    | succ k =>
      have h := ih (out ++ [out.getD src 0]) (src + 1) k (by simp; omega) (by omega)
      rw [copyOut, show out.length + (k + 1) = (out ++ [out.getD src 0]).length + k by simp; omega, h]
      congr 1
      omega

/-- Everything the copy does to SDECOMP's state. -/
theorem copyBack_spec (d : Sdecomp) (n src : Nat) (h : src < d.doutLen) :
    (d.copyBack n src).doutBytes = copyOut d.doutBytes n src ∧ (d.copyBack n src).doutLen = d.doutLen + n ∧
    (d.copyBack n src).cur = d.cur ∧ (d.copyBack n src).st = d.st ∧ (d.copyBack n src).cause = d.cause := by
  induction n generalizing d src with
  | zero => exact ⟨rfl, rfl, rfl, rfl, rfl⟩
  | succ n ih =>
    obtain ⟨h1, h2, h3, h4, h5⟩ := ih (d.append [d.readDout src]) (src + 1) (by simp; omega)
    refine ⟨?_, ?_, h3, h4, h5⟩
    · rw [Sdecomp.copyBack, h1, copyOut, Sdecomp.append_doutBytes, Sdecomp.readDout_eq d src h]
    · rw [Sdecomp.copyBack, h2]
      simp
      omega

theorem copyBack_regs (d : Sdecomp) (n src : Nat) :
    (d.copyBack n src).doutLen = d.doutLen + n ∧ (d.copyBack n src).cur = d.cur ∧
    (d.copyBack n src).st = d.st ∧ (d.copyBack n src).cause = d.cause := by
  induction n generalizing d src with
  | zero => exact ⟨rfl, rfl, rfl, rfl⟩
  | succ n ih =>
    obtain ⟨h2, h3, h4, h5⟩ := ih (d.append [d.readDout src]) (src + 1)
    refine ⟨?_, h3, h4, h5⟩
    rw [Sdecomp.copyBack, h2]
    simp
    omega

/-- The copy stores to `[dout_len, dout_len + n)` and nowhere else. -/
theorem copyBack_read (d : Sdecomp) (n src a : Nat) (h : a < d.doutLen ∨ d.doutLen + n ≤ a) :
    Memory.read (d.copyBack n src).dout a = Memory.read d.dout a := by
  induction n generalizing d src with
  | zero => rfl
  | succ n ih =>
    rw [Sdecomp.copyBack, ih _ _ (by simp; omega), Sdecomp.append_dout, Memory.read_writeBytes, if_neg (by simp; omega)]

theorem copyBack_dense (d : Sdecomp) (n src : Nat) (h : Memory.dense d.dout d.doutLen = true) :
    Memory.dense (d.copyBack n src).dout (d.copyBack n src).doutLen = true := by
  induction n generalizing d src with
  | zero => exact h
  | succ n ih => exact ih _ _ (Memory.dense_writeBytes h [d.readDout src])

/-! ### The FIFO stores -/

theorem newest_eq_drop (n : Nat) (l : List Byte) : newest n l = l.drop (l.length - n) := by
  rw [newest, List.take_reverse, List.reverse_reverse]

theorem newest_length (n : Nat) (l : List Byte) : (newest n l).length = min l.length n := by
  simp [newest, Nat.min_comm]

theorem newest_of_le {n : Nat} {l : List Byte} (h : l.length ≤ n) : newest n l = l := by
  rw [newest_eq_drop, Nat.sub_eq_zero_of_le h, List.drop_zero]

/-- Keeping the newest bytes early changes nothing later. -/
theorem newest_newest_append (n : Nat) (l m : List Byte) : newest n (newest n l ++ m) = newest n (l ++ m) := by
  simp only [newest_eq_drop]
  rw [← List.drop_append_of_le_length (by omega), List.drop_drop]
  refine congrArg (fun k => List.drop k (l ++ m)) ?_
  simp
  omega

/-- A push keeps the newest `WSIZE` bytes (R27). -/
theorem windowPush_eq (w : List Byte) (v : Byte) (h : w.length ≤ 4096) :
    windowPush w v = newest 4096 (w ++ [v]) := by
  rw [newest_eq_drop, windowPush, Config.wsize_eq]
  split
  · rename_i hw
    rw [List.length_append, List.length_singleton, show w.length + 1 - 4096 = 1 by omega,
      List.drop_append_of_le_length (by omega)]
  · rename_i hw
    rw [List.length_append, List.length_singleton, show w.length + 1 - 4096 = 0 by omega]
    rfl

theorem windowPush_length_le (w : List Byte) (v : Byte) (h : w.length ≤ 4096) :
    (windowPush w v).length ≤ 4096 := by
  rw [windowPush_eq w v h, newest_length]
  omega

/-- Moving `n` bytes into the window: the buffer loses its front, the window keeps the newest bytes, nothing else changes. -/
theorem moveFront_spec (c : Scomp) (n : Nat) (hn : n ≤ c.b.length) (hw : c.w.length ≤ 4096) :
    (c.moveFront n).w = newest 4096 (c.w ++ c.b.take n) ∧ (c.moveFront n).b = c.b.drop n ∧
    (c.moveFront n).rd = c.rd ∧ (c.moveFront n).cout = c.cout ∧ (c.moveFront n).coutLen = c.coutLen ∧
    (c.moveFront n).st = c.st ∧ (c.moveFront n).cause = c.cause := by
  induction n generalizing c with
  | zero =>
    refine ⟨?_, rfl, rfl, rfl, rfl, rfl, rfl⟩
    rw [List.take_zero, List.append_nil, newest_of_le hw]
    rfl
  | succ n ih =>
    cases hb : c.b with
    | nil => simp [hb] at hn
    | cons v rest =>
      have hpop : c.popFront = some (v, { c with b := rest }) := by simp [Scomp.popFront, hb]
      have hmv : c.moveFront (n + 1) = (Scomp.push { c with b := rest } v).moveFront n := by
        rw [Scomp.moveFront, hpop]
      obtain ⟨h1, h2, h3⟩ := ih (Scomp.push { c with b := rest } v) (by simp [hb] at hn; simpa using hn)
        (windowPush_length_le c.w v hw)
      rw [hmv]
      refine ⟨?_, h2, h3⟩
      rw [h1, Scomp.push_w, Scomp.push_b, windowPush_eq c.w v hw, newest_newest_append, List.take_succ_cons,
        List.append_assoc]
      rfl

/-- `Refill` reads the slice of the input that follows `rd` (R30, R51). -/
theorem cin_slice (h : HostSide) (rd n : Nat) :
    Memory.readBytes .cin h.cin rd (min n (h.cinLen - rd)) = (h.cinBytes.drop rd).take n := by
  by_cases hr : rd ≤ h.cinLen
  · rw [HostSide.cinBytes, Memory.readBytes_drop _ _ _ _ _ hr, Nat.zero_add]
    by_cases hn : n ≤ h.cinLen - rd
    · rw [Memory.readBytes_take _ _ _ _ _ hn, Nat.min_eq_left hn]
    · rw [Nat.min_eq_right (by omega), List.take_of_length_le (by simp; omega)]
  · rw [show h.cinLen - rd = 0 by omega, Nat.min_zero, List.drop_eq_nil_of_le (by simp; omega)]
    simp

/-- A fetch reads the stream from `cur`, at most three bytes (R53). -/
theorem fetchBytes_eq (s : State) : s.fetchBytes = (s.host.dinBytes.drop s.decomp.cur).take 3 := by
  unfold State.fetchBytes
  by_cases hr : s.decomp.cur ≤ s.host.dinLen
  · rw [HostSide.dinBytes, Memory.readBytes_drop _ _ _ _ _ hr, Nat.zero_add]
    by_cases hn : 3 ≤ s.host.dinLen - s.decomp.cur
    · rw [Memory.readBytes_take _ _ _ _ _ hn, Nat.min_eq_left hn]
    · rw [Nat.min_eq_right (by omega), List.take_of_length_le (by simp; omega)]
  · rw [show s.host.dinLen - s.decomp.cur = 0 by omega, Nat.min_zero, List.drop_eq_nil_of_le (by simp; omega)]
    rfl

/-- What a literal step emits for a byte (R130, R131). -/
def literalOut (v : Byte) : List Byte := if v = 0xCC then [0xCC, 0x00, 0x00] else [v]

/-- Everything a literal step does (R129). -/
theorem literalStep_eq {c : Scomp} {v : Byte} {rest : List Byte} (h : HostSide) (hb : c.b = v :: rest) :
    c.literalStep h =
      { w := windowPush c.w v
        b := rest ++ (h.cinBytes.drop c.rd).take 1
        rd := c.rd + min 1 (h.cinLen - c.rd)
        cout := Memory.writeBytes c.cout c.coutLen (literalOut v)
        coutLen := c.coutLen + (literalOut v).length
        st := c.st
        cause := c.cause } := by
  have e : c.literalStep h =
      Scomp.refill h 1 (Scomp.append (Scomp.push { c with b := rest } v) (literalOut v)) := by
    unfold Scomp.literalStep Scomp.popFront
    rw [hb]
    simp only [Scomp.emitLiteral, Config.esc_eq, literalOut]
    by_cases hv : v = 0xCC
    · rw [if_pos hv, if_pos hv]
    · rw [if_neg hv, if_neg hv]
  rw [e]
  unfold Scomp.refill
  simp only [cin_slice]
  rfl

/-- Everything a match step does once ENCODE has answered the bytes `bs` (R132). -/
theorem matchMove_eq (c : Scomp) (h : HostSide) (bs : List Byte) (n : Nat) (hn : n ≤ c.b.length)
    (hw : c.w.length ≤ 4096) :
    ((c.append bs).moveFront n).refill h n =
      { w := newest 4096 (c.w ++ c.b.take n)
        b := c.b.drop n ++ (h.cinBytes.drop c.rd).take n
        rd := c.rd + min n (h.cinLen - c.rd)
        cout := Memory.writeBytes c.cout c.coutLen bs
        coutLen := c.coutLen + bs.length
        st := c.st
        cause := c.cause } := by
  obtain ⟨m1, m2, m3, m4, m5, m6, m7⟩ := moveFront_spec (c.append bs) n hn hw
  unfold Scomp.refill
  simp only [cin_slice, m1, m2, m3, m4, m5, m6, m7]
  rfl

end Sys2Proof.Machine
end

