-- ==== Sys2Proof/Laws/Step.lean ====
section
/-! SUPPORT. What a step can do, said once: the cases of a boundary, of an engine's advance and of each token's meaning. -/

namespace Sys2Proof.Machine

open Safety

/-- The meaning of a token, written back or refused; or a PTR's fault. -/
theorem exec_cases {i : Instr} {s t : State} (h : exec i s = .next t) :
    (∃ v, i = .lit v ∧ t = { s with decomp := (s.decomp.append [v]).advance 1 } ∧ t.decomp.Fits s.params) ∨
    (i = .esclit ∧ t = { s with decomp := (s.decomp.append [Config.esc]).advance 3 } ∧ t.decomp.Fits s.params) ∨
    (∃ o l, i = .ptr o l ∧ ¬ s.decomp.doutLen < o.toNat + 1 ∧
      ¬ (s.params.overlap = .fault ∧ o.toNat + 1 < l.toNat + 4) ∧ t.decomp.Fits s.params ∧
      t = { s with decomp := (s.decomp.copyBack (l.toNat + 4) (s.decomp.doutLen - o.toNat - 1)).advance 3 }) ∨
    (∃ o l, i = .ptr o l ∧ t = s.raiseDecomp .referenceOutOfRange ∧
      (s.decomp.doutLen < o.toNat + 1 ∨ (s.params.overlap = .fault ∧ o.toNat + 1 < l.toNat + 4))) := by
  cases i with
  | lit v =>
    obtain ⟨hf, rfl⟩ := commitDecomp_eq_next h
    exact .inl ⟨v, rfl, rfl, hf⟩
  | esclit =>
    obtain ⟨hf, rfl⟩ := commitDecomp_eq_next h
    exact .inr (.inl ⟨rfl, rfl, hf⟩)
  | ptr o l =>
    refine .inr (.inr ?_)
    simp only [exec, execPtr] at h
    split at h
    · rename_i h1
      exact .inr ⟨o, l, rfl, (Host.Outcome.next.inj h).symm, .inl ((ptrOutOfRange_iff _ _).1 h1)⟩
    · split at h
      · rename_i h2
        rw [Bool.and_eq_true, beq_iff_eq, ptrOverlaps_iff] at h2
        exact .inr ⟨o, l, rfl, (Host.Outcome.next.inj h).symm, .inr h2⟩
      · rename_i h1 h2
        rw [Bool.and_eq_true, beq_iff_eq, ptrOverlaps_iff] at h2
        rw [ptrOutOfRange_iff] at h1
        obtain ⟨hf, rfl⟩ := commitDecomp_eq_next h
        exact .inl ⟨o, l, rfl, h1, h2, hf, rfl⟩

/-- A token of SDECOMP: its meaning, or the fault of a marker without its two bytes. -/
theorem decompToken_cases {s t : State} (h : decompToken s = .next t) :
    (∃ i rest, decode s.fetchBytes = .ok (i, rest) ∧ exec i s = .next t) ∨
    (∃ e, decode s.fetchBytes = .error e ∧ t = s.raiseDecomp .truncatedInput) := by
  unfold decompToken at h
  split at h
  · rename_i i rest hd
    exact .inl ⟨i, rest, hd, h⟩
  · rename_i e hd
    exact .inr ⟨e, hd, (Host.Outcome.next.inj h).symm⟩

/-- A token of SCOMP: the literal step, the match step, or ENCODE's fault. -/
theorem compToken_cases {s t : State} (h : compToken s = .next t) :
    (find s.comp.w s.comp.b = none ∧ t = { s with comp := s.comp.literalStep s.host } ∧ t.comp.Fits s.params) ∨
    (∃ r tr, find s.comp.w s.comp.b = some r ∧ pcodecEncode r = .ok tr ∧ t.comp.Fits s.params ∧
      t = { s with comp := ((s.comp.append tr.toList).moveFront r.length).refill s.host r.length }) ∨
    (∃ r, find s.comp.w s.comp.b = some r ∧ pcodecEncode r = .error .invalidParameters ∧
      t = s.raiseComp .invalidParameters) := by
  unfold compToken at h
  split at h
  · rename_i hf
    obtain ⟨hfit, rfl⟩ := commitComp_eq_next h
    exact .inl ⟨hf, rfl, hfit⟩
  · rename_i r hf
    rcases pcodecEncode_cases r with ⟨_, _, _, tr, he⟩ | ⟨_, he⟩
    · simp only [Scomp.matchStep, he] at h
      obtain ⟨hfit, rfl⟩ := commitComp_eq_next h
      exact .inr (.inl ⟨r, tr, hf, he, hfit, rfl⟩)
    · simp only [Scomp.matchStep, he] at h
      exact .inr (.inr ⟨r, hf, he, (Host.Outcome.next.inj h).symm⟩)

/-- An advance of SDECOMP: a token and the termination test, or the test alone. -/
theorem decompAdvance_cases {s t : State} (h : decompAdvance s = .next t) :
    (s.decomp.cur < s.host.dinLen ∧ ∃ u, decompToken s = .next u ∧ t = u.settleDecomp) ∨
    (¬ s.decomp.cur < s.host.dinLen ∧ t = s.settleDecomp) := by
  unfold decompAdvance at h
  split at h
  · rename_i hm
    exact .inl ⟨by simpa [State.decompMore] using hm, mapNext_eq_next h⟩
  · rename_i hm
    exact .inr ⟨by simpa [State.decompMore] using hm, (Host.Outcome.next.inj h).symm⟩

/-- An advance of SCOMP: a step and the termination test, or the test alone. -/
theorem compAdvance_cases {s t : State} (h : compAdvance s = .next t) :
    (s.comp.b ≠ [] ∧ ∃ u, compToken s = .next u ∧ t = u.settleComp) ∨
    (s.comp.b = [] ∧ t = s.settleComp) := by
  unfold compAdvance at h
  split at h
  · rename_i hm
    exact .inl ⟨by simpa [State.compMore] using hm, mapNext_eq_next h⟩
  · rename_i hm
    exact .inr ⟨by simpa [State.compMore] using hm, (Host.Outcome.next.inj h).symm⟩

theorem Scomp.popFront_st {c c' : Scomp} {v : Byte} (h : c.popFront = some (v, c')) : c'.st = c.st := by
  unfold Scomp.popFront at h
  split at h <;> cases h
  rfl

/-- A move of bytes into the window leaves the status, whatever the buffer holds. -/
@[simp] theorem Scomp.moveFront_st (n : Nat) (c : Scomp) : (c.moveFront n).st = c.st := by
  induction n generalizing c with
  | zero => rfl
  | succ n ih =>
    unfold Scomp.moveFront
    split
    · rfl
    · rename_i h
      rw [ih, Scomp.push_st, Scomp.popFront_st h]

/-- The literal step leaves the status, whatever the buffer holds. -/
@[simp] theorem Scomp.literalStep_st (h : HostSide) (c : Scomp) : (c.literalStep h).st = c.st := by
  unfold Scomp.literalStep
  split
  · rfl
  · rename_i hp
    rw [Scomp.refill_st, Scomp.emitLiteral]
    split <;> rw [Scomp.append_st, Scomp.push_st, Scomp.popFront_st hp]

/-- The termination test makes no engine IDLE (R134, R160). -/
theorem settle_not_idle (s : State) :
    (s.comp.st ≠ .idle → s.settleComp.comp.st ≠ .idle) ∧ (s.decomp.st ≠ .idle → s.settleDecomp.decomp.st ≠ .idle) := by
  unfold State.settleComp State.settleDecomp
  constructor <;> intro h <;> split <;> simp [h]

/-- A running SDECOMP is never IDLE after an advance: only reset makes it so (R45, R180). -/
theorem decompAdvance_not_idle {s t : State} (hb : s.decomp.st = .busy) (h : decompAdvance s = .next t) :
    t.decomp.st ≠ .idle := by
  rcases decompAdvance_cases h with ⟨_, u, hu, rfl⟩ | ⟨_, rfl⟩ <;> refine (settle_not_idle _).2 ?_
  · rcases decompToken_cases hu with ⟨i, _, _, he⟩ | ⟨_, _, rfl⟩
    · rcases exec_cases he with ⟨_, _, rfl, _⟩ | ⟨_, rfl, _⟩ | ⟨_, _, _, _, _, _, rfl⟩ | ⟨_, _, _, rfl, _⟩ <;>
        simp [hb, copyBack_regs]
    · simp
  · simp [hb]

/-- A running SCOMP is never IDLE after an advance (R45, R180). -/
theorem compAdvance_not_idle {s t : State} (hb : s.comp.st = .busy) (h : compAdvance s = .next t) :
    t.comp.st ≠ .idle := by
  rcases compAdvance_cases h with ⟨_, u, hu, rfl⟩ | ⟨_, rfl⟩ <;> refine (settle_not_idle _).1 ?_
  · rcases compToken_cases hu with ⟨_, rfl, _⟩ | ⟨_, _, _, _, _, rfl⟩ | ⟨_, _, _, rfl⟩ <;> simp [hb]
  · simp [hb]

/-- What an accepted `comp_start` leaves (R126). -/
def startedComp (s : State) : Scomp :=
  { w := [], b := Memory.readBytes .cin s.host.cin 0 (min 29 s.host.cinLen), rd := min 29 s.host.cinLen
    cout := [], coutLen := 0, st := .busy, cause := .none }

/-- What an accepted `decomp_start` leaves (R150). -/
def startedDecomp : Sdecomp := { cur := 0, dout := [], doutLen := 0, st := .busy, cause := .none }

theorem busy_iff (s : State) : s.busy = true ↔ s.comp.st = .busy ∨ s.decomp.st = .busy := by
  simp [State.busy]

/-- Everything a step can do (R40, R41, R43, R200): reset, an advance of the BUSY engine, an accepted start, or nothing. -/
theorem step_cases {s t : State} (h : step s = .next t) :
    (s.host.rst = true ∧ t = s.applyReset) ∨
    (s.host.rst = false ∧ s.comp.st = .busy ∧ compAdvance s.dropStrobes = .next t) ∨
    (s.host.rst = false ∧ s.comp.st ≠ .busy ∧ s.decomp.st = .busy ∧ decompAdvance s.dropStrobes = .next t) ∨
    (s.host.rst = false ∧ s.comp.st ≠ .busy ∧ s.decomp.st ≠ .busy ∧ s.host.compStart = true ∧
      (startedComp s).Fits s.params ∧ t = { s.dropStrobes with comp := startedComp s }) ∨
    (s.host.rst = false ∧ s.comp.st ≠ .busy ∧ s.decomp.st ≠ .busy ∧ s.host.compStart = false ∧
      s.host.decompStart = true ∧ startedDecomp.Fits s.params ∧ t = { s.dropStrobes with decomp := startedDecomp }) ∨
    (s.host.rst = false ∧ s.comp.st ≠ .busy ∧ s.decomp.st ≠ .busy ∧ s.host.compStart = false ∧
      s.host.decompStart = false ∧ t = s) := by
  unfold step stepBoundary at h
  split at h
  · rename_i hr
    exact .inl ⟨hr, (Host.Outcome.next.inj h).symm⟩
  · rename_i hr
    rw [Bool.not_eq_true] at hr
    split at h
    · rename_i hb
      unfold engineAdvance at h
      rw [State.dropStrobes_comp] at h
      split at h
      · rename_i hc
        exact .inr (.inl ⟨hr, hc, h⟩)
      · rename_i hc
        exact .inr (.inr (.inl ⟨hr, hc, ((busy_iff s).1 hb).resolve_left hc, h⟩))
    · rename_i hb
      rw [busy_iff, not_or] at hb
      split at h
      · rename_i hcs
        obtain ⟨hf, rfl⟩ := commitComp_eq_next h
        exact .inr (.inr (.inr (.inl ⟨hr, hb.1, hb.2, hcs, hf, rfl⟩)))
      · rename_i hcs
        rw [Bool.not_eq_true] at hcs
        split at h
        · rename_i hds
          obtain ⟨hf, rfl⟩ := commitDecomp_eq_next h
          exact .inr (.inr (.inr (.inr (.inl ⟨hr, hb.1, hb.2, hcs, hds, hf, rfl⟩))))
        · rename_i hds
          rw [Bool.not_eq_true] at hds
          exact .inr (.inr (.inr (.inr (.inr ⟨hr, hb.1, hb.2, hcs, hds, (Host.Outcome.next.inj h).symm⟩))))

/-- A BUSY SCOMP moves (R125). -/
theorem step_comp {s : State} (h : ScompTurn s) : step s = compAdvance s.dropStrobes := by
  unfold step stepBoundary engineAdvance
  rw [h.1, (busy_iff s).2 (.inl h.2), State.dropStrobes_comp, if_pos h.2]
  rfl

/-- A BUSY SDECOMP moves (R150). -/
theorem step_decomp {s : State} (h : SdecompTurn s) : step s = decompAdvance s.dropStrobes := by
  unfold step stepBoundary engineAdvance
  rw [h.1, (busy_iff s).2 (.inr h.2.2), State.dropStrobes_comp, if_neg h.2.1]
  rfl

/-- Zero fits every bound. -/
theorem zero_fits (p : Config.Params) : p.posFits 0 = true ∧ p.capFits 0 = true := by
  constructor
  · unfold Config.Params.posFits; split <;> simp
  · unfold Config.Params.capFits; split <;> simp

/-- What FIND can answer: the most recent position that matches, with its run; or none does. -/
theorem find_cases (w b : List Byte) :
    (∃ i, i + 3 < w.length ∧ MatchesAt w b i ∧ (∀ j, i < j → ¬ MatchesAt w b j) ∧
      find w b = some { offset := w.length - 1 - i, length := matchRun w b i }) ∨
    ((∀ j, ¬ MatchesAt w b j) ∧ find w b = none) := by
  rcases findBelow_cases w b w.length with ⟨i, hi, h1, h2, h3⟩ | ⟨h1, h2⟩
  · refine .inl ⟨i, matchesAt_lt h1, h1, fun j hj hm => h2 j hj (by have := matchesAt_lt hm; omega) hm, h3⟩
  · refine .inr ⟨fun j hm => h1 j (by have := matchesAt_lt hm; omega) hm, h2⟩

theorem matchRun_ge {w b : List Byte} {i : Nat} (h : MatchesAt w b i) : 4 ≤ matchRun w b i := by
  have := (matchesAt_iff w b i).2 h
  rw [Bool.and_eq_true, decide_eq_true_iff] at this
  exact this.2

/-- Inside its run the window and the buffer agree. -/
theorem matchRun_agree {w b : List Byte} {i j : Nat} (h : j < matchRun w b i) :
    ∃ v, w[i + j]? = some v ∧ b[j]? = some v := by
  have h1 := commonRun_agree 19 (w.drop i) b j h
  have hb := matchRun_bounds w b i
  have : j < b.length := by omega
  rw [List.getElem?_drop] at h1
  exact ⟨b[j], by rw [h1]; simp [this], by simp [this]⟩

end Sys2Proof.Machine
end

