-- ==== Sys2Proof/Laws/Bounds.lean ====
section
/-! SUPPORT. What `LEN_BITS` and `OUT_CAP` do to an operation (R13): beside the same operation with the bounds taken away, it
either answers the same next state or is refused because what the moving engine would then hold does not fit. -/

namespace Sys2Proof.Machine

open Safety

/-- `r` is an operation of SCOMP at `s`, `r'` the same one without the bounds. -/
def CompBounded (s : State) (r r' : Result) : Prop :=
  ∃ u, r' = .next u ∧ u.decomp = s.decomp ∧
    (r = .next { u with params := s.params } ∨
     (r = .refused .outCapExceeded ∧ s.params.capFits u.comp.coutLen = false) ∨
     (r = .refused .lenBitsExceeded ∧
       (s.params.posFits u.comp.coutLen = false ∨ s.params.posFits u.comp.rd = false)))

/-- `r` is an operation of SDECOMP at `s`, `r'` the same one without the bounds. -/
def DecompBounded (s : State) (r r' : Result) : Prop :=
  ∃ u, r' = .next u ∧ u.comp = s.comp ∧
    (r = .next { u with params := s.params } ∨
     (r = .refused .outCapExceeded ∧ s.params.capFits u.decomp.doutLen = false) ∨
     (r = .refused .lenBitsExceeded ∧
       (s.params.posFits u.decomp.doutLen = false ∨ s.params.posFits u.decomp.cur = false)))

theorem commitComp_bounded (s : State) (c : Scomp) :
    CompBounded s (s.commitComp c) ((unbounded s).commitComp c) := by
  refine ⟨_, commitComp_unbounded s c, rfl, ?_⟩
  rcases commitComp_cases s c with ⟨_, e⟩ | ⟨_, h, e⟩ | ⟨h, e⟩
  · exact .inl e
  · exact .inr (.inr ⟨e, h⟩)
  · exact .inr (.inl ⟨e, h⟩)

theorem commitDecomp_bounded (s : State) (d : Sdecomp) :
    DecompBounded s (s.commitDecomp d) ((unbounded s).commitDecomp d) := by
  refine ⟨_, commitDecomp_unbounded s d, rfl, ?_⟩
  rcases commitDecomp_cases s d with ⟨_, e⟩ | ⟨_, h, e⟩ | ⟨h, e⟩
  · exact .inl e
  · exact .inr (.inr ⟨e, h⟩)
  · exact .inr (.inl ⟨e, h⟩)

theorem CompBounded.settle {s : State} {r r' : Result} (h : CompBounded s r r') :
    CompBounded s (mapNext State.settleComp r) (mapNext State.settleComp r') := by
  obtain ⟨u, rfl, h0, h⟩ := h
  refine ⟨_, rfl, by simpa using h0, ?_⟩
  rcases h with rfl | ⟨rfl, h⟩ | ⟨rfl, h⟩
  · refine .inl ?_
    show Host.Outcome.next _ = _
    congr 1
    unfold State.settleComp State.compMore
    simp only
    split <;> rfl
  · exact .inr (.inl ⟨rfl, by simpa using h⟩)
  · exact .inr (.inr ⟨rfl, by simpa using h⟩)

theorem DecompBounded.settle {s : State} {r r' : Result} (h : DecompBounded s r r') :
    DecompBounded s (mapNext State.settleDecomp r) (mapNext State.settleDecomp r') := by
  obtain ⟨u, rfl, h0, h⟩ := h
  refine ⟨_, rfl, by simpa using h0, ?_⟩
  rcases h with rfl | ⟨rfl, h⟩ | ⟨rfl, h⟩
  · refine .inl ?_
    show Host.Outcome.next _ = _
    congr 1
    unfold State.settleDecomp State.decompMore
    simp only
    split <;> rfl
  · exact .inr (.inl ⟨rfl, by simpa using h⟩)
  · exact .inr (.inr ⟨rfl, by simpa using h⟩)

/-- Each token. -/
theorem exec_bounded (i : Instr) (s : State) : DecompBounded s (exec i s) (exec i (unbounded s)) := by
  cases i with
  | lit v => exact commitDecomp_bounded s _
  | esclit => exact commitDecomp_bounded s _
  | ptr o l =>
    show DecompBounded s (execPtr o l s) (execPtr o l (unbounded s))
    unfold execPtr
    by_cases h1 : ptrOutOfRange o s.decomp.doutLen = true
    · rw [if_pos h1, if_pos (show ptrOutOfRange o (unbounded s).decomp.doutLen = true from h1)]
      exact ⟨_, rfl, rfl, .inl rfl⟩
    · rw [if_neg h1, if_neg (show ¬ ptrOutOfRange o (unbounded s).decomp.doutLen = true from h1)]
      by_cases h2 : (s.params.overlap == .fault && ptrOverlaps o l) = true
      · rw [if_pos h2, if_pos (show ((unbounded s).params.overlap == .fault && ptrOverlaps o l) = true from h2)]
        exact ⟨_, rfl, rfl, .inl rfl⟩
      · rw [if_neg h2, if_neg (show ¬ ((unbounded s).params.overlap == .fault && ptrOverlaps o l) = true from h2)]
        exact commitDecomp_bounded s _

/-- An advance of SCOMP. -/
theorem compAdvance_bounded (s : State) : CompBounded s (compAdvance s) (compAdvance (unbounded s)) := by
  unfold compAdvance
  rw [unbounded_compMore]
  by_cases h : s.compMore = true
  · rw [if_pos h, if_pos h]
    apply CompBounded.settle
    unfold compToken
    show CompBounded s _ (match find s.comp.w s.comp.b with | none => _ | some r => _)
    cases find s.comp.w s.comp.b with
    | none => exact commitComp_bounded s _
    | some r =>
      simp only
      show CompBounded s _ (match s.comp.matchStep s.host r with | .error e => _ | .ok c => _)
      cases s.comp.matchStep s.host r with
      | error e => exact ⟨_, rfl, rfl, .inl rfl⟩
      | ok c => exact commitComp_bounded s _
  · rw [if_neg h, if_neg h]
    exact CompBounded.settle (r := .next s) (r' := .next (unbounded s)) ⟨_, rfl, rfl, .inl rfl⟩

/-- An advance of SDECOMP. -/
theorem decompAdvance_bounded (s : State) : DecompBounded s (decompAdvance s) (decompAdvance (unbounded s)) := by
  unfold decompAdvance
  rw [unbounded_decompMore]
  by_cases h : s.decompMore = true
  · rw [if_pos h, if_pos h]
    apply DecompBounded.settle
    unfold decompToken
    show DecompBounded s _ (match decode s.fetchBytes with | .ok (i, _) => _ | .error _ => _)
    cases decode s.fetchBytes with
    | error e => exact ⟨_, rfl, rfl, .inl rfl⟩
    | ok r => exact exec_bounded r.1 s
  · rw [if_neg h, if_neg h]
    exact DecompBounded.settle (r := .next s) (r' := .next (unbounded s)) ⟨_, rfl, rfl, .inl rfl⟩

end Sys2Proof.Machine
end

