-- ==== Sys2Proof/Laws/PerInstr.lean ====
section
/-! SUPPORT. A statement about every token as syntax, one lemma per constructor: the framing of R76. -/

namespace Sys2Proof.Laws.Framing

/-- The encoding of a token has the token's length, and opens with the marker exactly when that length is 3 (R76). -/
def Statement (i : Instr) : Prop :=
  i.wf = true → (encode i).length = i.length ∧ ((encode i).head? = some Config.esc ↔ i.length = 3)

theorem esclit : Statement .esclit := fun _ => by decide

theorem ptr (offset : BitVec 12) (lenbias : BitVec 4) : Statement (.ptr offset lenbias) :=
  fun _ => ⟨rfl, by simp [encode, Instr.length]⟩

theorem lit (value : BitVec 8) : Statement (.lit value) := fun h => by
  have hv : value ≠ Config.esc := by simpa [Instr.wf] using h
  exact ⟨rfl, by simp [encode, Instr.length]; simpa using hv⟩

end Sys2Proof.Laws.Framing
end

