-- ==== Sys2Proof/Laws/Scomp.lean ====
section
/-! SUPPORT. SCOMP as the statements see it: what an advance does, and that its stores follow its input (R28, R29). -/

namespace Sys2Proof.Machine

open Safety

/-- What FIND answers can be taken from the buffer and encoded (R118, R133). -/
theorem find_some {w b : List Byte} {r : BackRef} (hw : w.length ≤ 4096) (h : find w b = some r) :
    4 ≤ r.length ∧ r.length ≤ 19 ∧ r.length ≤ b.length ∧ ∃ t, pcodecEncode r = .ok t := by
  rcases find_cases w b with ⟨i, hi, hm, _, he⟩ | ⟨_, he⟩
  · rw [h] at he
    cases he
    have h1 := matchRun_ge hm
    have h2 := matchRun_bounds w b i
    exact ⟨h1, h2.1, h2.2.2, _, pcodecEncode_ok (by show w.length - 1 - i < 4096; omega) ⟨h1, h2.1⟩⟩
  · rw [h] at he
    cases he

/-- Everything an advance of SCOMP can do when it is not refused (R128, R129, R132, R134). -/
theorem compAdvance_spec {s t : State} (hw : s.comp.w.length ≤ 4096) (h : compAdvance s = .next t) :
    (s.comp.b = [] ∧ t = s.settleComp) ∨
    (∃ v rest, s.comp.b = v :: rest ∧ find s.comp.w s.comp.b = none ∧
      t = State.settleComp { s with comp := s.comp.literalStep s.host } ∧ (s.comp.literalStep s.host).Fits s.params) ∨
    (∃ r tr, find s.comp.w s.comp.b = some r ∧ r.length ≤ s.comp.b.length ∧ pcodecEncode r = .ok tr ∧
      t = State.settleComp { s with comp := ((s.comp.append tr.toList).moveFront r.length).refill s.host r.length } ∧
      (((s.comp.append tr.toList).moveFront r.length).refill s.host r.length).Fits s.params) := by
  rcases compAdvance_cases h with ⟨hb, u, hu, rfl⟩ | ⟨hb, rfl⟩
  · refine .inr ?_
    rcases compToken_cases hu with ⟨hf, rfl, hfit⟩ | ⟨r, tr, hf, he, hfit, rfl⟩ | ⟨r, hf, he, rfl⟩
    · cases hc : s.comp.b with
      | nil => exact absurd hc hb
      | cons v rest => rw [hc] at hf; exact .inl ⟨v, rest, rfl, hf, rfl, hfit⟩
    · exact .inr ⟨r, tr, hf, (find_some hw hf).2.2.1, he, rfl, hfit⟩
    · obtain ⟨tr, ht⟩ := (find_some hw hf).2.2.2
      rw [ht] at he
      cases he
  · exact .inl ⟨hb, rfl⟩

/-- An advance of SCOMP touches SCOMP alone. -/
theorem compAdvance_frame {s t : State} (h : compAdvance s = .next t) :
    t.params = s.params ∧ t.host = s.host ∧ t.decomp = s.decomp := by
  rcases compAdvance_cases h with ⟨_, u, hu, rfl⟩ | ⟨_, rfl⟩
  · rcases compToken_cases hu with ⟨_, rfl, _⟩ | ⟨_, _, _, _, _, rfl⟩ | ⟨_, _, _, rfl⟩ <;> simp
  · simp

theorem State.settleComp_coutBytes (s : State) : s.settleComp.comp.coutBytes = s.comp.coutBytes := by
  unfold Scomp.coutBytes
  simp

theorem State.settleComp_consumed (s : State) : s.settleComp.comp.consumed = s.comp.consumed := by
  unfold Scomp.consumed
  simp

theorem literalStep_coutBytes {c : Scomp} {v : Byte} {rest : List Byte} (h : HostSide) (hb : c.b = v :: rest) :
    (c.literalStep h).coutBytes = c.coutBytes ++ literalOut v := by
  rw [literalStep_eq h hb]
  exact c.append_coutBytes (literalOut v)

theorem matchMove_coutBytes (c : Scomp) (h : HostSide) (bs : List Byte) (n : Nat) (hn : n ≤ c.b.length)
    (hw : c.w.length ≤ 4096) : (((c.append bs).moveFront n).refill h n).coutBytes = c.coutBytes ++ bs := by
  rw [matchMove_eq c h bs n hn hw]
  exact c.append_coutBytes bs

/-- A refilled buffer is again a slice of the input. -/
theorem refill_slice (l rest : List Byte) (q m n : Nat) {rd : Nat} (hr : rest = (l.drop q).take m) (h1 : rd ≤ q + m)
    (h2 : rd = q + m ∨ l.length ≤ rd) : rest ++ (l.drop rd).take n = (l.drop q).take (m + n) := by
  subst hr
  by_cases h : rd = q + m
  · rw [List.take_add, List.drop_drop, h]
  · rw [List.drop_eq_nil_of_le (show l.length ≤ rd by omega), List.take_nil, List.append_nil,
      List.take_of_length_le (by simp; omega), List.take_of_length_le (by simp; omega)]

/-- The lengths that go with stores that follow the input. -/
theorem follows_lengths {h : HostSide} {c : Scomp} (hF : Follows h c) :
    c.w.length = min c.consumed 4096 ∧ c.b.length = min 29 (h.cinLen - c.consumed) ∧ c.consumed ≤ h.cinLen ∧
    c.rd = c.consumed + c.b.length := by
  obtain ⟨h1, h2, h3, h4⟩ := hF
  rw [Config.wsize_eq] at h2
  rw [Config.bsize_eq] at h3 h4
  have hlen := h.cinBytes_length
  have hb3 : c.b.length = min 29 (h.cinLen - c.consumed) := by rw [h3]; simp
  have hcons : c.consumed = c.rd - c.b.length := rfl
  have hw : c.w.length = min c.consumed 4096 := by
    rw [h2, newest_length, List.length_take, hlen]
    omega
  exact ⟨hw, hb3, by omega, by omega⟩

/-- The literal step consumes one byte, and the stores follow (R129). -/
theorem follows_literalStep {h : HostSide} {c : Scomp} {v : Byte} {rest : List Byte} (hF : Follows h c)
    (hb : c.b = v :: rest) : Follows h (c.literalStep h) ∧ (c.literalStep h).consumed = c.consumed + 1 := by
  have hw := (follows_lengths hF).1
  obtain ⟨h1, h2, h3, h4⟩ := hF
  rw [Config.wsize_eq] at h2
  rw [Config.bsize_eq] at h3 h4
  have hlen := h.cinBytes_length
  have hbl : c.b.length = rest.length + 1 := by rw [hb]; rfl
  have hb3 : c.b.length = min 29 (h.cinLen - c.consumed) := by rw [h3]; simp
  have hcons : c.consumed = c.rd - c.b.length := rfl
  have hv : h.cinBytes[c.consumed]? = some v := by
    have := congrArg (·[0]?) h3
    simp only [hb, List.getElem?_cons_zero] at this
    rw [List.getElem?_take_of_lt (by omega), List.getElem?_drop] at this
    exact this.symm
  have hrest : rest = (h.cinBytes.drop (c.consumed + 1)).take 28 := by
    have := congrArg List.tail (hb.symm.trans h3)
    obtain ⟨hlt, he⟩ := List.getElem?_eq_some_iff.1 hv
    rw [List.drop_eq_getElem_cons hlt] at this
    exact this
  rw [literalStep_eq h hb]
  have hc' : (c.rd + min 1 (h.cinLen - c.rd)) - (rest ++ (h.cinBytes.drop c.rd).take 1).length = c.consumed + 1 := by
    simp
    omega
  refine ⟨⟨?_, ?_, ?_, ?_⟩, hc'⟩
  · simp
    omega
  · unfold Scomp.consumed
    rw [hc', Config.wsize_eq]
    show windowPush c.w v = _
    rw [windowPush_eq _ _ (by omega), h2, newest_newest_append, List.take_add_one, hv]
    rfl
  · unfold Scomp.consumed
    rw [hc', Config.bsize_eq]
    exact refill_slice _ _ _ 28 1 (hrest ▸ rfl) (by omega) (by omega)
  · unfold Scomp.consumed
    rw [hc', Config.bsize_eq]
    simp only
    omega

/-- The match step consumes `n` bytes, and the stores follow (R132). -/
theorem follows_matchMove {h : HostSide} {c : Scomp} (bs : List Byte) (n : Nat) (hF : Follows h c)
    (hn : n ≤ c.b.length) : Follows h (((c.append bs).moveFront n).refill h n) ∧
      (((c.append bs).moveFront n).refill h n).consumed = c.consumed + n := by
  have hw := (follows_lengths hF).1
  obtain ⟨h1, h2, h3, h4⟩ := hF
  rw [Config.wsize_eq] at h2
  rw [Config.bsize_eq] at h3 h4
  have hlen := h.cinBytes_length
  have hb3 : c.b.length = min 29 (h.cinLen - c.consumed) := by rw [h3]; simp
  have hcons : c.consumed = c.rd - c.b.length := rfl
  rw [matchMove_eq c h bs n hn (by omega)]
  have hc' : (c.rd + min n (h.cinLen - c.rd)) - (c.b.drop n ++ (h.cinBytes.drop c.rd).take n).length =
      c.consumed + n := by
    simp
    omega
  refine ⟨⟨?_, ?_, ?_, ?_⟩, hc'⟩
  · simp
    omega
  · unfold Scomp.consumed
    rw [hc', Config.wsize_eq]
    simp only
    rw [List.take_add, h2, newest_newest_append, h3, List.take_take]
    congr 3
    omega
  · unfold Scomp.consumed
    rw [hc', Config.bsize_eq]
    have e := refill_slice h.cinBytes (c.b.drop n) (c.consumed + n) (29 - n) n (rd := c.rd)
      (by rw [h3, List.drop_take, List.drop_drop]) (by omega) (by omega)
    rw [Nat.sub_add_cancel (by omega)] at e
    exact e
  · unfold Scomp.consumed
    rw [hc', Config.bsize_eq]
    simp only
    omega

theorem follows_settleComp (s : State) (hF : Follows s.host s.comp) : Follows s.host s.settleComp.comp := by
  obtain ⟨h1, h2, h3, h4⟩ := hF
  exact ⟨by simpa using h1, by simpa [Scomp.consumed] using h2, by simpa [Scomp.consumed] using h3,
    by simpa [Scomp.consumed] using h4⟩

theorem follows_strobesOver {h : HostSide} {c : Scomp} (hF : Follows h c) : Follows (strobesOver h) c :=
  ⟨hF.buffered, hF.window, hF.buffer, hF.read⟩

/-- An accepted start has consumed nothing, and its stores follow the input (R126). -/
theorem follows_started (s : State) : Follows s.host (startedComp s) ∧ (startedComp s).consumed = 0 := by
  have e := cin_slice s.host 0 29
  rw [Nat.sub_zero, List.drop_zero] at e
  have hc : (startedComp s).consumed = 0 := by simp [startedComp, Scomp.consumed]
  refine ⟨⟨by simp [startedComp], ?_, ?_, ?_⟩, hc⟩
  · rw [hc]; rfl
  · rw [hc]; exact e
  · rw [hc]; simp [startedComp]

end Sys2Proof.Machine
end

