-- ==== Sys2Proof/Laws/Stream.lean ====
section
/-! SUPPORT. Reading a stream token by token: what a decoded token leaves, and how `expand` goes over a sequence of tokens. -/

namespace Sys2Proof

/-- What follows a token is the sequence without the token's bytes (R76). -/
theorem decode_drop {bs rest : List Byte} {i : Instr} (h : decode bs = .ok (i, rest)) :
    rest = bs.drop i.length ∧ i.length ≤ bs.length ∧ 1 ≤ i.length ∧ i.length ≤ 3 := by
  rcases decode_cases _ _ _ h with ⟨v, _, rfl, rfl⟩ | ⟨rfl, rfl⟩ | ⟨b1, b2, _, rfl, rfl⟩ <;> simp [Instr.length]

/-- Bytes behind a token do not change how it is read (R76). -/
theorem decode_append {bs rest : List Byte} {i : Instr} (ys : List Byte) (h : decode bs = .ok (i, rest)) :
    decode (bs ++ ys) = .ok (i, rest ++ ys) := by
  rcases decode_cases _ _ _ h with ⟨v, hv, rfl, rfl⟩ | ⟨rfl, rfl⟩ | ⟨b1, b2, hz, rfl, rfl⟩
  · exact decode_lit hv _
  · exact (decode_long 0 0 _).trans (if_pos ⟨rfl, rfl⟩)
  · exact (decode_long b1 b2 _).trans (if_neg hz)

/-- Three bytes are enough to read a token (R53, R151). -/
theorem decode_take3 (bs : List Byte) :
    (∃ i rest, decode bs = .ok (i, rest) ∧ decode (bs.take 3) = .ok (i, (bs.take 3).drop i.length)) ∨
    (∃ e, decode bs = .error e ∧ decode (bs.take 3) = .error e) := by
  match bs with
  | [] => exact .inr ⟨_, rfl, rfl⟩
  | b0 :: rest =>
    by_cases h : b0 = 0xCC
    · subst h
      match rest with
      | [] => exact .inr ⟨_, rfl, rfl⟩
      | [b1] => exact .inr ⟨_, rfl, rfl⟩
      | b1 :: b2 :: rest' =>
        refine .inl ?_
        show ∃ i rest, decode (0xCC :: b1 :: b2 :: rest') = .ok (i, rest) ∧
          decode (0xCC :: b1 :: b2 :: []) = .ok (i, [0xCC, b1, b2].drop i.length)
        rw [decode_long, decode_long]
        split
        · exact ⟨_, _, rfl, rfl⟩
        · exact ⟨_, _, rfl, rfl⟩
    · refine .inl ⟨_, _, decode_lit h rest, ?_⟩
      rw [List.take_succ_cons, decode_lit h]
      rfl

open Safety Machine

/-- More fuel than bytes changes nothing. -/
theorem expandFrom_fuel (policy : Config.OverlapPolicy) (n : Nat) (bs out : List Byte) (h : bs.length ≤ n) :
    expandFrom policy n bs out = expandFrom policy bs.length bs out := by
  induction n using Nat.strong_induction_on generalizing bs out with
  | _ n ih =>
    match n, bs, h with
    | n, [], _ => cases n <;> rfl
    | 0, b :: rest, h => simp at h
    | n + 1, b :: rest, h =>
      rw [List.length_cons, expandFrom, expandFrom]
      cases hd : decode (b :: rest) with
      | error e => rfl
      | ok p =>
        obtain ⟨i, rest'⟩ := p
        have hr := decode_drop hd
        have hl : rest'.length + i.length = rest.length + 1 := by
          rw [hr.1, List.length_drop]
          simp only [List.length_cons] at hr ⊢
          omega
        simp only [List.length_cons] at h
        simp only
        cases tokenOut policy out i with
        | error c => rfl
        | ok out' =>
          simp only
          rw [ih n (by omega) rest' out' (by omega), ih rest.length (by omega) rest' out' (by omega)]

/-- One token of `expand`. -/
theorem expandFrom_token (policy : Config.OverlapPolicy) {bs rest out : List Byte} {i : Instr}
    (h : decode bs = .ok (i, rest)) :
    expandFrom policy bs.length bs out =
      match tokenOut policy out i with
      | .error c => .error c
      | .ok out' => expandFrom policy rest.length rest out' := by
  have hr := decode_drop h
  cases bs with
  | nil => cases h
  | cons b r =>
    have hl : rest.length ≤ r.length := by
      rw [hr.1, List.length_drop]
      simp only [List.length_cons] at hr ⊢
      omega
    rw [List.length_cons, expandFrom, h]
    simp only
    cases tokenOut policy out i with
    | error c => rfl
    | ok out' => exact expandFrom_fuel _ _ _ _ hl

/-- A stream that expands may be followed by more: `expand` goes on from its output. -/
theorem expandFrom_append (policy : Config.OverlapPolicy) (n : Nat) (xs ys out out' : List Byte) (hn : xs.length ≤ n)
    (h : expandFrom policy xs.length xs out = .ok out') :
    expandFrom policy (xs ++ ys).length (xs ++ ys) out = expandFrom policy ys.length ys out' := by
  induction n generalizing xs out with
  | zero =>
    obtain rfl : xs = [] := by cases xs <;> simp_all
    cases h
    rfl
  | succ n ih =>
    cases hx : xs with
    | nil => subst hx; cases h; rfl
    | cons b r =>
      cases hd : decode xs with
      | error e => rw [hx] at hd h; rw [List.length_cons, expandFrom, hd] at h; cases h
      | ok p =>
        obtain ⟨i, rest⟩ := p
        rw [expandFrom_token policy hd] at h
        rw [← hx, expandFrom_token policy (decode_append ys hd)]
        have hr := decode_drop hd
        cases ht : tokenOut policy out i with
        | error c => rw [ht] at h; cases h
        | ok o =>
          rw [ht] at h
          exact ih rest o (by rw [hr.1, List.length_drop]; omega) h

/-- One more token at the end of a stream that expands. -/
theorem expand_snoc (policy : Config.OverlapPolicy) {xs out : List Byte} {i : Instr} (h : expand policy xs = .ok out)
    (hi : decode (encode i) = .ok (i, [])) : expand policy (xs ++ encode i) = tokenOut policy out i := by
  unfold expand at *
  rw [expandFrom_append policy xs.length xs _ _ _ (le_refl _) h, expandFrom_token policy hi]
  cases tokenOut policy out i <;> rfl

end Sys2Proof
end

