-- ==== Sys2Proof/Laws/Sdecomp.lean ====
section
/-! SUPPORT. SDECOMP as the statements see it: the copy of a PTR byte by byte, a token's meaning as a function of the output
so far, and what an advance does. -/

namespace Sys2Proof.Machine

open Safety

theorem Sdecomp.readDout_congr {d d' : Sdecomp} {a : Nat} (h : Memory.read d.dout a = Memory.read d'.dout a) :
    d.readDout a = d'.readDout a := by
  unfold Sdecomp.readDout Memory.byteAt
  rw [h]

/-- A one-byte append: its byte, and every other position. -/
theorem Sdecomp.read_append (d : Sdecomp) (v : Byte) (a : Nat) :
    Memory.read (d.append [v]).dout a = if a = d.doutLen then some v else Memory.read d.dout a := by
  rw [Sdecomp.append_dout, Memory.read_writeBytes]
  by_cases h : a = d.doutLen
  · subst h; simp
  · rw [if_neg (by simp; omega), if_neg h]

/-- The byte appended at iteration `k` of the copy (R156). -/
theorem copyBack_new (d : Sdecomp) (n src k : Nat) (hs : src < d.doutLen) (hk : k < n) :
    Memory.read (d.copyBack n src).dout (d.doutLen + k) = some ((d.copyBack n src).readDout (src + k)) := by
  induction n generalizing d src k with
  | zero => omega
  | succ n ih =>
    rw [Sdecomp.copyBack]
    cases k with
    | zero =>
      have e1 := copyBack_read (d.append [d.readDout src]) n (src + 1) d.doutLen (.inl (by simp))
      have e2 := copyBack_read (d.append [d.readDout src]) n (src + 1) src (.inl (by simp; omega))
      simp only [Nat.add_zero]
      rw [e1, Sdecomp.read_append, if_pos rfl]
      refine congrArg some (Sdecomp.readDout_congr ?_)
      rw [e2, Sdecomp.read_append, if_neg (by omega)]
    | succ k =>
      have := ih (d.append [d.readDout src]) (src + 1) k (by simp; omega) (by omega)
      rw [show src + (k + 1) = src + 1 + k by omega,
        show d.doutLen + (k + 1) = (d.append [d.readDout src]).doutLen + k by simp; omega]
      exact this

/-- A copy that does not run into its own output appends a slice. -/
theorem copyOut_slice (out : List Byte) (n src : Nat) (h : src + n ≤ out.length) :
    copyOut out n src = out ++ (out.drop src).take n := by
  apply List.ext_getElem?
  intro k
  by_cases hk : k < out.length
  · rw [copyOut_old _ _ _ _ hk, List.getElem?_append_left hk]
  · by_cases hk2 : k < out.length + n
    · obtain ⟨j, rfl⟩ : ∃ j, k = out.length + j := ⟨k - out.length, by omega⟩
      rw [copyOut_new _ _ _ _ (by omega) (by omega), copyOut_old _ _ _ _ (by omega),
        List.getElem?_append_right (by omega), List.getElem?_take_of_lt (by omega), List.getElem?_drop]
      congr 1
      omega
    · rw [List.getElem?_eq_none (by rw [copyOut_length]; omega), List.getElem?_eq_none (by simp; omega)]

/-- A copy from `o + 1` bytes back repeats them cyclically. -/
theorem copyOut_cyclic (out : List Byte) (n o k : Nat) (h : o + 1 ≤ out.length) (hk : k < n) :
    (copyOut out n (out.length - o - 1))[out.length + k]? = out[out.length - o - 1 + k % (o + 1)]? := by
  induction k using Nat.strong_induction_on with
  | _ k ih =>
    rw [copyOut_new _ _ _ _ (by omega) hk]
    by_cases hlt : k < o + 1
    · rw [copyOut_old _ _ _ _ (by omega), Nat.mod_eq_of_lt hlt]
    · have := ih (k - (o + 1)) (by omega) (by omega)
      rw [show out.length - o - 1 + k = out.length + (k - (o + 1)) by omega, this,
        Nat.mod_eq_sub_mod (show k ≥ o + 1 by omega)]

/-- A PTR whose reference is in range and whose overlap is allowed (R156). -/
theorem execPtr_next {s : State} {o : BitVec 12} {l : BitVec 4} (h1 : o.toNat + 1 ≤ s.decomp.doutLen)
    (h2 : s.params.overlap = .replicate ∨ l.toNat + 4 ≤ o.toNat + 1)
    (h3 : Room s.params (s.decomp.doutLen + (l.toNat + 4)) (s.decomp.cur + 3)) :
    execPtr o l s = .next
      { s with decomp := (s.decomp.copyBack (l.toNat + 4) (s.decomp.doutLen - o.toNat - 1)).advance 3 } := by
  obtain ⟨r1, r2, _⟩ := copyBack_regs s.decomp (l.toNat + 4) (s.decomp.doutLen - o.toNat - 1)
  unfold execPtr
  rw [if_neg (by simp; omega), if_neg]
  · refine commitDecomp_next ?_
    show s.params.capFits (s.decomp.copyBack (l.toNat + 4) (s.decomp.doutLen - o.toNat - 1)).doutLen = true ∧
      s.params.posFits (s.decomp.copyBack (l.toNat + 4) (s.decomp.doutLen - o.toNat - 1)).doutLen = true ∧
      s.params.posFits ((s.decomp.copyBack (l.toNat + 4) (s.decomp.doutLen - o.toNat - 1)).cur + 3) = true
    rw [r1, r2]
    exact h3
  · rw [Bool.and_eq_true, beq_iff_eq, ptrOverlaps_iff]
    rintro ⟨e1, e2⟩
    rcases h2 with h2 | h2
    · rw [h2] at e1; cases e1
    · omega

/-- A token's meaning as a function of the output so far: `tokenOut`, or the PTR's fault (R152, R154, R156, R158, R159). -/
theorem exec_tokenOut {s t : State} {i : Instr} (h : exec i s = .next t) :
    (∃ out, tokenOut s.params.overlap s.decomp.doutBytes i = .ok out ∧ t.decomp.doutBytes = out ∧
      t.decomp.cur = s.decomp.cur + i.length ∧ t.decomp.st = s.decomp.st ∧ t.decomp.cause = s.decomp.cause ∧
      t.host = s.host ∧ t.params = s.params ∧ t.comp = s.comp) ∨
    (tokenOut s.params.overlap s.decomp.doutBytes i = .error .referenceOutOfRange ∧
      t = s.raiseDecomp .referenceOutOfRange) := by
  rcases exec_cases h with ⟨v, rfl, rfl, _⟩ | ⟨rfl, rfl, _⟩ | ⟨o, l, rfl, h1, h2, _, rfl⟩ | ⟨o, l, rfl, rfl, h1⟩
  · exact .inl ⟨_, rfl, by simp, rfl, rfl, rfl, rfl, rfl, rfl⟩
  · exact .inl ⟨_, rfl, by simp, rfl, rfl, rfl, rfl, rfl, rfl⟩
  · have hs := copyBack_spec s.decomp (l.toNat + 4) (s.decomp.doutLen - o.toNat - 1) (by omega)
    refine .inl ⟨copyOut s.decomp.doutBytes (l.toNat + 4) (s.decomp.doutLen - o.toNat - 1), ?_, ?_, ?_,
      hs.2.2.2.1, hs.2.2.2.2, rfl, rfl, rfl⟩
    · simp only [tokenOut, Sdecomp.doutBytes_length]
      rw [if_neg h1, if_neg h2]
    · simp [hs.1]
    · simp [hs.2.2.1, Instr.length]
  · refine .inr ⟨?_, rfl⟩
    simp only [tokenOut, Sdecomp.doutBytes_length]
    rcases h1 with h1 | h1
    · rw [if_pos h1]
    · by_cases h0 : s.decomp.doutLen < o.toNat + 1
      · rw [if_pos h0]
      · rw [if_neg h0, if_pos h1]

/-- With `LEN_BITS` and `OUT_CAP` unbounded every token has a next state. -/
theorem exec_unbounded {s : State} (h1 : s.params.lenBits = none) (h2 : s.params.outCap = none) (i : Instr) :
    ∃ t, exec i s = .next t := by
  have hfit : ∀ c, Sdecomp.Fits s.params c :=
    fun c => ⟨capFits_unbounded h2 _, posFits_unbounded h1 _, posFits_unbounded h1 _⟩
  cases i with
  | lit v => exact ⟨_, commitDecomp_next (hfit _)⟩
  | esclit => exact ⟨_, commitDecomp_next (hfit _)⟩
  | ptr o l =>
    simp only [exec, execPtr]
    split
    · exact ⟨_, rfl⟩
    · split
      · exact ⟨_, rfl⟩
      · exact ⟨_, commitDecomp_next (hfit _)⟩

/-- Everything an advance of SDECOMP can do when it is not refused (R150, R151, R157, R160). -/
theorem decompAdvance_spec {s t : State} (h : decompAdvance s = .next t) :
    (s.host.dinLen ≤ s.decomp.cur ∧ t = s.settleDecomp) ∨
    (s.decomp.cur < s.host.dinLen ∧ ∃ i rest u, decode (s.host.dinBytes.drop s.decomp.cur) = .ok (i, rest) ∧
      exec i s = .next u ∧ t = u.settleDecomp) ∨
    (s.decomp.cur < s.host.dinLen ∧ (∃ e, decode (s.host.dinBytes.drop s.decomp.cur) = .error e) ∧
      t = s.raiseDecomp .truncatedInput) := by
  rcases decompAdvance_cases h with ⟨hc, u, hu, rfl⟩ | ⟨hc, rfl⟩
  · rcases decompToken_cases hu with ⟨i, rest, hd, he⟩ | ⟨e, hd, rfl⟩ <;> rw [fetchBytes_eq] at hd
    · refine .inr (.inl ⟨hc, ?_⟩)
      rcases decode_take3 (s.host.dinBytes.drop s.decomp.cur) with ⟨i', rest', d1, d2⟩ | ⟨e, d1, d2⟩
      · rw [d2] at hd; cases hd; exact ⟨i, rest', u, d1, he, rfl⟩
      · rw [d2] at hd; cases hd
    · refine .inr (.inr ⟨hc, ?_, State.settleDecomp_stopped _ (by simp)⟩)
      rcases decode_take3 (s.host.dinBytes.drop s.decomp.cur) with ⟨i', rest', d1, d2⟩ | ⟨e', d1, d2⟩
      · rw [d2] at hd; cases hd
      · exact ⟨e', d1⟩
  · exact .inl ⟨Nat.not_lt.1 hc, rfl⟩

/-- An advance of SDECOMP touches SDECOMP alone. -/
theorem decompAdvance_frame {s t : State} (h : decompAdvance s = .next t) :
    t.params = s.params ∧ t.host = s.host ∧ t.comp = s.comp := by
  rcases decompAdvance_spec h with ⟨_, rfl⟩ | ⟨_, i, rest, u, _, he, rfl⟩ | ⟨_, _, rfl⟩
  · simp
  · rcases exec_tokenOut he with ⟨_, _, _, _, _, _, h1, h2, h3⟩ | ⟨_, rfl⟩
    · simp [h1, h2, h3]
    · simp
  · simp

/-- The step runs the token its three fetched bytes decode to (R53, R151). -/
theorem decompToken_decoded {s : State} {i : Instr} {rest : List Byte}
    (h : decode (s.host.dinBytes.drop s.decomp.cur) = .ok (i, rest)) : decompToken s = exec i s := by
  unfold decompToken
  rw [fetchBytes_eq]
  rcases decode_take3 (s.host.dinBytes.drop s.decomp.cur) with ⟨i', rest', d1, d2⟩ | ⟨e, d1, d2⟩
  · rw [h] at d1; cases d1; rw [d2]
  · rw [h] at d1; cases d1

end Sys2Proof.Machine
end

