-- ==== Sys2Proof/Tests/Slice0.lean ====
section
/-! SUPPORT. Tests: the wire format by words written out from 30_encoding.md, one-step tests from the vectors of
95_test_vectors.md, and for every statement with hypotheses a witness that meets them. -/

namespace Sys2Proof.Tests

open Machine Safety

/-! ### Helpers -/

/-- A space that holds the bytes from position 0. -/
def space (bs : List Byte) : Memory := Memory.writeBytes [] 0 bs

/-- Reset, with the host having written both inputs. -/
def loaded (cin din : List Byte) : State :=
  { State.reset with
    host := { HostSide.initial with cin := space cin, cinLen := cin.length, din := space din, dinLen := din.length } }

/-- SDECOMP running over `din` at `cur`, with `out` produced so far. -/
def decoding (din : List Byte) (cur : Nat) (out : List Byte) : State :=
  { loaded [] din with
    decomp := { cur := cur, dout := space out, doutLen := out.length, st := .busy, cause := .none } }

/-- SCOMP running over `cin`, with its stores, `rd` and output given. -/
def coding (cin w b : List Byte) (rd : Nat) (out : List Byte) : State :=
  { loaded cin [] with
    comp := { w := w, b := b, rd := rd, cout := space out, coutLen := out.length, st := .busy, cause := .none } }

/-- `s` with `comp_start` asserted. -/
def startComp (s : State) : State := { s with host := { s.host with compStart := true } }

/-- `s` with `decomp_start` asserted. -/
def startDecomp (s : State) : State := { s with host := { s.host with decompStart := true } }

/-- `s` with the open parameters `p`. -/
def withParams (p : Config.Params) (s : State) : State := { s with params := p }

/-- The next state, if there is one. -/
def nextOf : Result → Option State
  | .next t => some t
  | .fault _ => none
  | .refused _ => none

theorem exists_next {r : Result} (h : (nextOf r).isSome = true) : ∃ t, r = .next t := by
  cases r with
  | next t => exact ⟨t, rfl⟩
  | fault f => cases h
  | refused r => cases h

theorem exists_next_with {r : Result} {p : State → Bool} (h : (nextOf r).any p = true) :
    ∃ t, r = .next t ∧ p t = true := by
  cases r with
  | next t => exact ⟨t, rfl, h⟩
  | fault f => cases h
  | refused r => cases h

/-- `"abc"` twice, and four times. -/
def abc2 : List Byte := [0x61, 0x62, 0x63, 0x61, 0x62, 0x63]
def abc4 : List Byte := abc2 ++ abc2

/-- SCOMP before step 7 of program P4: the match step `PTR 5,6`. -/
def p4Step7 : State := coding abc4 abc2 abc2 12 abc2

/-- SDECOMP before step 5 of program P2: `PTR 3,4`. -/
def p2Step5 : State := decoding [0xCC, 0, 0, 1, 0xCC, 0, 0, 1, 0xCC, 0x00, 0x30] 8 [0xCC, 1, 0xCC, 1]

/-! ### Well-formedness and the decoder -/

/-- R74: `CC` is not a LIT. -/
theorem test_wf_refuses_lit_marker : (Instr.lit 0xCC).wf = false := by decide

/-- R79: the pair (0, 4) is not a PTR. -/
theorem test_wf_refuses_ptr_shadowed : (Instr.ptr 0 0).wf = false := by decide

/-- T1: `value` = 0110 0001. -/
theorem test_decode_lit_bits : decode [0b01100001] = .ok (.lit 0b01100001, []) := by decide

/-- T3E: 1100 1100, then sixteen zero bits. -/
theorem test_decode_esclit_bits : decode [0b11001100, 0b00000000, 0b00000000, 0x61] = .ok (.esclit, [0x61]) := by decide

/-- T3P: `offset` = 0001 0010 0011, `lenbias` = 1010 (the worked example of part 2). -/
theorem test_decode_ptr_bits :
    decode [0b11001100, 0b00010010, 0b00111010] = .ok (.ptr 0b000100100011 0b1010, []) := by decide

/-- R157: the marker with one byte after it. -/
theorem test_decode_truncated : decode [0xCC, 0x00] = .error .truncatedInput := by decide

/-- R75: no byte, no token. -/
theorem test_decode_empty : decode [] = .error .noToken := by decide

/-- R81: the table's numbering, `esc` at bits 23:16. -/
theorem test_table_word_ptr : decodeTableWord 24 0xCC0052 = some (.ptr 5 2) := by decide

/-! ### The instructions, one step each -/

/-- P1, step 1. -/
theorem test_lit_appends : (nextOf (step (decoding [0x61, 0x62] 0 []))).map
    (fun t => (t.decomp.doutBytes, t.decomp.cur, t.decomp.st)) = some ([0x61], 1, .busy) := by decide

/-- V-X2: the last token sets DONE. -/
theorem test_lit_last_is_done : (nextOf (step (decoding [0x61] 0 []))).map
    (fun t => (t.decomp.doutBytes, t.decomp.cur, t.decomp.st)) = some ([0x61], 1, .done) := by decide

/-- P2, step 1. -/
theorem test_esclit_appends_marker : (nextOf (step (decoding [0xCC, 0, 0, 1] 0 []))).map
    (fun t => (t.decomp.doutBytes, t.decomp.cur, t.decomp.st)) = some ([0xCC], 3, .busy) := by decide

/-- P3 (b), step 3: `PTR 1,7` runs into its own output. -/
theorem test_ptr_overlaps : (nextOf (step (decoding [0x61, 0x62, 0xCC, 0x00, 0x13] 2 [0x61, 0x62]))).map
    (fun t => (t.decomp.doutBytes, t.decomp.cur, t.decomp.st)) =
      some ([0x61, 0x62, 0x61, 0x62, 0x61, 0x62, 0x61, 0x62, 0x61], 5, .done) := by decide

/-- V-T11: `PTR 4,4` after four bytes. -/
theorem test_ptr_out_of_range : (nextOf (step (decoding [0x61, 0x62, 0x63, 0x64, 0xCC, 0x00, 0x40] 4
    [0x61, 0x62, 0x63, 0x64]))).map (fun t => (t.decomp.doutLen, t.decomp.cur, t.decomp.st, t.decomp.cause)) =
      some (4, 4, .fault, .referenceOutOfRange) := by decide

/-- V-T5: the first marker has one byte after it. -/
theorem test_truncated_marker : (nextOf (step (decoding [0x61, 0x61, 0xCC, 0xCC] 2 [0x61, 0x61]))).map
    (fun t => (t.decomp.doutLen, t.decomp.cur, t.decomp.st, t.decomp.cause)) =
      some (2, 2, .fault, .truncatedInput) := by decide

/-! ### SCOMP, MFIND, PCODEC -/

/-- P4, step 7. -/
theorem test_match_step : (nextOf (step p4Step7)).map (fun t => (t.comp.coutBytes, t.comp.w, t.comp.rd, t.comp.st)) =
    some (abc2 ++ [0xCC, 0x00, 0x52], abc4, 12, .done) := by decide

/-- V-C4. -/
theorem test_escaped_literal_step : (nextOf (step (coding [0xCC] [] [0xCC] 1 []))).map
    (fun t => (t.comp.coutBytes, t.comp.w, t.comp.st)) = some ([0xCC, 0, 0], [0xCC], .done) := by decide

/-- V-F3. -/
theorem test_find_older_candidate : find abc2 abc2 = some { offset := 5, length := 6 } := by decide

/-- V-F8: the nearer run of 4 wins over the farther run of 5. -/
theorem test_find_nearest : find [0x61, 0x62, 0x63, 0x64, 0x65, 0x58, 0x61, 0x62, 0x63, 0x64, 0x59]
    [0x61, 0x62, 0x63, 0x64, 0x65] = some { offset := 4, length := 4 } := by decide

/-- V-F2: the window's end stops the run at 3. -/
theorem test_find_window_boundary : find [0x61, 0x62, 0x63] (abc2 ++ [0x61, 0x62, 0x63]) = none := by decide

/-- V-E1. -/
theorem test_encode : pcodecEncode { offset := 291, length := 14 } = .ok { b0 := 0xCC, b1 := 0x12, b2 := 0x3A } := by
  decide

/-- V-E17. -/
theorem test_encode_refuses : pcodecEncode { offset := 0, length := 20 } = .error .invalidParameters := by decide

/-- V-D7: the first byte is not examined. -/
theorem test_decode_pointer : pcodecDecode { b0 := 0x00, b1 := 0x12, b2 := 0x3A } 3 =
    .ok { offset := 291, length := 14 } := by decide

/-- V-D9. -/
theorem test_decode_pointer_short : pcodecDecode { b0 := 0xCC, b1 := 0x12, b2 := 0 } 2 = .error .malformedPointer := by
  decide

/-! ### Starts, and an instruction placed at reset -/

/-- V-H4: both starts together. -/
theorem test_both_starts : (nextOf (step (startComp (startDecomp (loaded [0x61] [0x62]))))).map
    (fun t => (t.comp.st, t.decomp.st, t.host.decompStart)) = some (.busy, .idle, false) := by decide

/-- V-X1: the empty stream, at the boundary after its start (log entry 6). -/
theorem test_empty_stream : (nextOf (step (decoding [] 0 []))).map
    (fun t => (t.decomp.st, t.decomp.doutLen)) = some (.done, 0) := by decide

/-- The host's word for ESCLIT runs first after reset. -/
theorem test_fetch_word_esclit : (nextOf (step (State.reset.withFetchWord 24 0xCC0000))).map
    (fun t => (t.decomp.doutBytes, t.decomp.cur)) = some ([0xCC], 3) := by decide

/-- V-T7: a PTR as the first token. -/
theorem test_fetch_word_ptr : (nextOf (step (State.reset.withFetchWord 24 0xCC0010))).map
    (fun t => (t.decomp.cause, t.decomp.cur)) = some (.referenceOutOfRange, 0) := by decide

/-- The host's word for LIT; the bytes above its 8 bits are zero and are not fetched by this step. -/
theorem test_fetch_word_lit : (nextOf (step (State.reset.withFetchWord 8 0x61))).map
    (fun t => (t.decomp.doutBytes, t.decomp.cur)) = some ([0x61], 1) := by decide

/-! ### Witnesses: the wire format and PCODEC -/

theorem witness_DecodeOfEncode : Instr.esclit.wf = true ∧ (Instr.ptr 0 1).wf = true ∧ (Instr.ptr 1 0).wf = true ∧
    (Instr.ptr 4095 15).wf = true ∧ (Instr.lit 0xCB).wf = true := by decide

theorem witness_EncodeOfDecode : decode [0xCC, 0xFF, 0xFF, 0x61] = .ok (.ptr 4095 15, [0x61]) := by decide

/-- One per clause: a literal, the marker with one byte after it, with two zero bytes, with a field of 1. -/
theorem witness_ClassifyAtPosition : ([0x61, 0xCC] : List Byte)[0]? = some 0x61 ∧
    ([0x61, 0xCC, 0] : List Byte)[1]? = some 0xCC ∧ ([0xCC, 0, 0] : List Byte)[0]? = some 0xCC ∧
    ([0xCC, 0, 1] : List Byte)[0]? = some 0xCC := by decide

theorem witness_PtrOperandsFromField : ¬ ((0 : Byte) = 0 ∧ (1 : Byte) = 0) ∧ ¬ ((1 : Byte) = 0 ∧ (0 : Byte) = 0) := by
  decide

theorem witness_LengthFromFirstByte : decode (0xCC :: [0, 0]) = .ok (.esclit, []) ∧
    decode (0xCD :: [0]) = .ok (.lit 0xCD, [0]) := by decide

theorem witness_TableWordsDecode : ¬ ((0 : BitVec 12) = 0 ∧ (1 : BitVec 4) = 0) ∧ (0xCD : BitVec 8) ≠ 0xCC := by decide

/-- Both ends of (a)'s ranges, and two pairs encoded for (c). -/
theorem witness_CodecRoundTrip : (0 ≤ 4095 ∧ 4 ≤ 4 ∧ 4 ≤ 19) ∧ (4095 ≤ 4095 ∧ 4 ≤ 19 ∧ 19 ≤ 19) ∧
    pcodecEncode { offset := 0, length := 4 } = .ok { b0 := 0xCC, b1 := 0, b2 := 0 } ∧
    pcodecEncode { offset := 4095, length := 19 } = .ok { b0 := 0xCC, b1 := 0xFF, b2 := 0xFF } := by decide

/-- The host drives the encode ports. -/
def driving (offset : BitVec 16) (length : BitVec 8) : State :=
  { State.reset with host := { HostSide.initial with encOffset := offset, encLength := length } }

/-- Each bound from both sides. -/
theorem witness_EncodePorts : (driving 4095 19).encFault = false ∧ (driving 4096 19).encFault = true ∧
    (driving 0 4).encFault = false ∧ (driving 0 3).encFault = true ∧ (driving 0 20).encFault = true := by decide

/-- The host drives the decode ports. -/
def presenting (bytes : Triple) (count : BitVec 2) : State :=
  { State.reset with host := { HostSide.initial with decIn := bytes, decCount := count } }

theorem witness_DecodePorts : (presenting { b0 := 0, b1 := 0, b2 := 0 } 2).decFault = true ∧
    (presenting { b0 := 0, b1 := 0xFF, b2 := 0xFF } 3).decFault = false := by decide

/-! ### Witnesses: MFIND and SCOMP -/

theorem witness_FindResultRanges : abc2.length ≤ 4096 ∧ find abc2 abc2 = some { offset := 5, length := 6 } := by decide

theorem witness_NearestMatchWins : find [0x61, 0x61, 0x61, 0x61] [0x61, 0x61, 0x61, 0x61] =
    some { offset := 3, length := 4 } := by decide

theorem witness_NoMatchExactly : ([0x61, 0x62, 0x63] : List Byte).length < 4 ∧ ([] : List Byte).length < 4 := by decide

/-- The empty buffer, no match, and a match. -/
theorem witness_FinderOutputs :
    (let s := coding [] [] [] 0 []
     s.comp.w.length ≤ 4096 ∧ s.comp.b = []) ∧
    (let s := { p4Step7 with host := { p4Step7.host with rst := true } }
     s.comp.w.length ≤ 4096 ∧ ¬ ScompTurn s ∧ s.comp.st = .busy ∧ s.comp.b ≠ []) ∧
    (let s := coding [0x61] [] [0x61] 1 []
     s.comp.w.length ≤ 4096 ∧ ScompTurn s ∧ s.comp.b ≠ [] ∧ find s.comp.w s.comp.b = none) ∧
    p4Step7.comp.w.length ≤ 4096 ∧ ScompTurn p4Step7 ∧
      find p4Step7.comp.w p4Step7.comp.b = some { offset := 5, length := 6 } := by
  unfold ScompTurn
  decide

/-- An empty window and a full one. -/
theorem witness_PushKeepsNewest : ([] : List Byte).length ≤ 4096 ∧ (List.replicate 4096 (0 : Byte)).length ≤ 4096 :=
  ⟨Nat.zero_le _, Nat.le_of_eq List.length_replicate⟩

/-- With both starts asserted, and with the empty input under the narrowest `LEN_BITS`. -/
theorem witness_CompStartInitialises :
    (let s := startComp (startDecomp (loaded [0x61] [0x62]))
     s.host.rst = false ∧ s.comp.st ≠ .busy ∧ s.decomp.st ≠ .busy ∧ s.host.compStart = true ∧
       s.params.posFits (min 29 s.host.cinLen) = true) ∧
    (let s := startComp (withParams { lenBits := some 0, outCap := some 0, overlap := .fault } (loaded [] []))
     s.host.rst = false ∧ s.comp.st ≠ .busy ∧ s.decomp.st ≠ .busy ∧ s.host.compStart = true ∧
       s.params.posFits (min 29 s.host.cinLen) = true) := by decide

/-- A byte that is not the marker, refilled from an input of two, and the marker, the last byte. -/
theorem witness_LiteralStepEffect :
    (let s := coding [0x61, 0x62] [] [0x61] 1 []
     ScompTurn s ∧ s.comp.b = 0x61 :: [] ∧ find s.comp.w s.comp.b = none ∧
       Room s.params (s.comp.coutLen + 1) (s.comp.rd + min 1 (s.host.cinLen - s.comp.rd))) ∧
    (let s := coding [0xCC] [] [0xCC] 1 []
     ScompTurn s ∧ s.comp.b = 0xCC :: [] ∧ find s.comp.w s.comp.b = none ∧
       Room s.params (s.comp.coutLen + 3) (s.comp.rd + min 1 (s.host.cinLen - s.comp.rd))) := by
  unfold ScompTurn Room
  decide

theorem witness_MatchStepEffect : ScompTurn p4Step7 ∧ p4Step7.comp.w.length ≤ 4096 ∧
    find p4Step7.comp.w p4Step7.comp.b = some { offset := 5, length := 6 } ∧
    Room p4Step7.params (p4Step7.comp.coutLen + 3)
      (p4Step7.comp.rd + min 6 (p4Step7.host.cinLen - p4Step7.comp.rd)) := by
  unfold ScompTurn Room
  decide

theorem witness_CompressorNeverFaults : p4Step7.comp.w.length ≤ 4096 ∧ p4Step7.comp.st ≠ .fault ∧
    p4Step7.comp.cause = .none ∧ ∃ t, step p4Step7 = .next t :=
  ⟨by decide, by decide, by decide, exists_next (by decide)⟩

theorem follows_p4Step7 : Follows p4Step7.host p4Step7.comp := ⟨by decide, by decide, by decide, by decide⟩

/-- An accepted start, and a step of a running compress. -/
theorem witness_StoresFollowInput :
    (∃ t, step (startComp (loaded abc4 [])) = .next t ∧ (t.comp.st == .busy) = true) ∧
    p4Step7.host.rst = false ∧ p4Step7.comp.st = .busy ∧ Follows p4Step7.host p4Step7.comp ∧
    ∃ t, step p4Step7 = .next t :=
  ⟨exists_next_with (by decide), by decide, by decide, follows_p4Step7, exists_next (by decide)⟩

theorem witness_EmittedPointersInHistory : Follows p4Step7.host p4Step7.comp ∧
    find p4Step7.comp.w p4Step7.comp.b = some { offset := 5, length := 6 } := ⟨follows_p4Step7, by decide⟩

theorem witness_OutputExpandsToInput :
    (∃ t, step (startComp (loaded abc4 [])) = .next t ∧ (t.comp.st == .busy) = true) ∧
    p4Step7.host.rst = false ∧ p4Step7.comp.st = .busy ∧ Follows p4Step7.host p4Step7.comp ∧
    expand .fault p4Step7.comp.coutBytes = .ok (p4Step7.host.cinBytes.take p4Step7.comp.consumed) ∧
    ∃ t, step p4Step7 = .next t :=
  ⟨exists_next_with (by decide), by decide, by decide, follows_p4Step7, by decide, exists_next (by decide)⟩

/-- At the bound: one escaped byte behind, one ahead. -/
theorem witness_OutputAtMostTriple :
    let s := coding [0xCC, 0xCC] [0xCC] [0xCC] 2 [0xCC, 0, 0]
    (s.host.rst = false ∧ s.comp.st = .busy) ∧ s.comp.w.length ≤ 4096 ∧ s.comp.b.length ≤ s.comp.rd ∧
      s.comp.coutLen = 3 * s.comp.consumed ∧ ∃ t, step s = .next t :=
  ⟨by decide, by decide, by decide, by decide, exists_next (by decide)⟩

/-- Reset with inputs loaded is ready. -/
theorem ready_loaded (cin din : List Byte) : Ready (loaded cin din) :=
  ⟨rfl, rfl, rfl, nofun, nofun⟩

theorem ready_startComp {s : State} (h : Ready s) : Ready (startComp s) := ⟨h.1, h.2, h.3, h.4, h.5⟩

theorem ready_startDecomp {s : State} (h : Ready s) : Ready (startDecomp s) := ⟨h.1, h.2, h.3, h.4, h.5⟩

/-- The empty input and one that is not. -/
theorem witness_CompressTerminates : (Ready (startComp (loaded [] [])) ∧
      (startComp (loaded [] [])).host.compStart = true) ∧
    Ready (startComp (loaded abc4 [])) ∧ (startComp (loaded abc4 [])).host.compStart = true :=
  ⟨⟨ready_startComp (ready_loaded _ _), rfl⟩, ready_startComp (ready_loaded _ _), rfl⟩

/-- Two machines that differ in SDECOMP's input. -/
theorem witness_CompressDependsOnInputOnly :
    let s := startComp (loaded abc4 [])
    let s' := startComp (loaded abc4 [0xCC])
    Ready s ∧ Ready s' ∧ s.host.compStart = true ∧ s'.host.compStart = true ∧ s.host.cinBytes = s'.host.cinBytes ∧
      ∃ t, Runs (0 + 1) s t := by
  refine ⟨ready_startComp (ready_loaded _ _), ready_startComp (ready_loaded _ _), rfl, rfl, rfl, ?_⟩
  obtain ⟨t, ht⟩ := exists_next (r := step (startComp (loaded abc4 []))) (by decide)
  exact ⟨t, t, ht, rfl⟩

/-- A one-byte compress, run to its end, and the decompress of its output. -/
theorem witness_RoundTrip :
    let s := startComp (loaded [0x61] [])
    let u := startDecomp (loaded [] [0x61])
    Ready s ∧ s.host.compStart = true ∧
      (∃ t, Runs 2 s t ∧ t.comp.st = .done ∧ u.host.dinBytes = t.comp.coutBytes) ∧
      Ready u ∧ u.host.compStart = false ∧ u.host.decompStart = true := by
  refine ⟨ready_startComp (ready_loaded _ _), rfl, ⟨_, ⟨_, rfl, _, rfl, rfl⟩, ?_, ?_⟩,
    ready_startDecomp (ready_loaded _ _), rfl, rfl⟩ <;> decide

/-! ### Witnesses: SDECOMP and the tokens -/

theorem witness_DecompStartInitialises :
    let s := startDecomp (loaded [] [0x61])
    s.host.rst = false ∧ s.comp.st ≠ .busy ∧ s.decomp.st ≠ .busy ∧ s.host.compStart = false ∧
      s.host.decompStart = true := by decide

/-- The empty input of each engine, under the narrowest bounds. -/
theorem witness_EmptyInputIsDone :
    let s := withParams { lenBits := some 0, outCap := some 0, overlap := .fault } (loaded [] [])
    (s.host.rst = false ∧ s.comp.st ≠ .busy ∧ s.decomp.st ≠ .busy) ∧
      ((startComp s).host.compStart = true ∧ (startComp s).host.cinLen = 0) ∧
      (startDecomp s).host.compStart = false ∧ (startDecomp s).host.decompStart = true ∧
      (startDecomp s).host.dinLen = 0 := by decide

/-- `OUT_CAP` and `LEN_BITS` just wide enough, for a LIT and for an ESCLIT. -/
theorem witness_LitResult :
    let s := withParams { lenBits := some 1, outCap := some 1, overlap := .replicate } (decoding [0x61] 0 [])
    Room s.params (s.decomp.doutLen + 1) (s.decomp.cur + 1) := by
  unfold Room
  decide

theorem witness_EsclitResult :
    let s := withParams { lenBits := some 2, outCap := some 1, overlap := .replicate } (decoding [0xCC, 0, 0] 0 [])
    Room s.params (s.decomp.doutLen + 1) (s.decomp.cur + 3) := by
  unfold Room
  decide

/-- `offset + 1 = dout_len`, the earliest legal source: `length <= offset + 1`, and `length > offset + 1`. -/
theorem witness_PtrResult :
    (let s := withParams { lenBits := none, outCap := some 8, overlap := .fault } p2Step5
     (3 : BitVec 12).toNat + 1 ≤ s.decomp.doutLen ∧ (0 : BitVec 4).toNat + 4 ≤ (3 : BitVec 12).toNat + 1 ∧
       Room s.params (s.decomp.doutLen + ((0 : BitVec 4).toNat + 4)) (s.decomp.cur + 3)) ∧
    ((3 : BitVec 12).toNat + 1 ≤ p2Step5.decomp.doutLen ∧ p2Step5.params.overlap = .replicate ∧
      Room p2Step5.params (p2Step5.decomp.doutLen + ((15 : BitVec 4).toNat + 4)) (p2Step5.decomp.cur + 3)) := by
  unfold Room
  decide

theorem witness_PtrWithoutOverlapCopiesSlice : (3 : BitVec 12).toNat + 1 ≤ p2Step5.decomp.doutLen ∧
    (0 : BitVec 4).toNat + 4 ≤ (3 : BitVec 12).toNat + 1 ∧
    Room p2Step5.params (p2Step5.decomp.doutLen + ((0 : BitVec 4).toNat + 4)) (p2Step5.decomp.cur + 3) := by
  unfold Room
  decide

/-- `length = offset + 2`, under either policy. -/
theorem witness_PtrOverlapReplicates : ((3 : BitVec 12).toNat + 1 ≤ p2Step5.decomp.doutLen ∧
      (3 : BitVec 12).toNat + 1 < (1 : BitVec 4).toNat + 4 ∧ p2Step5.params.overlap = .replicate ∧
      Room p2Step5.params (p2Step5.decomp.doutLen + ((1 : BitVec 4).toNat + 4)) (p2Step5.decomp.cur + 3)) ∧
    (withParams { lenBits := none, outCap := none, overlap := .fault } p2Step5).params.overlap = .fault := by
  unfold Room
  decide

/-- `PTR 4,4` and `PTR 3,4` after four bytes. -/
theorem witness_PtrOutOfRangeFaults : p2Step5.decomp.doutLen < (4 : BitVec 12).toNat + 1 ∧
    (3 : BitVec 12).toNat + 1 ≤ p2Step5.decomp.doutLen ∧ p2Step5.params.overlap = .replicate ∧
    ∃ t, exec (.ptr 3 0) p2Step5 = .next t :=
  ⟨by decide, by decide, by decide, exists_next (by decide)⟩

/-- Each token with a next state, and a PTR that faults. -/
theorem witness_TokenFrame : (∃ t, exec (.lit 0x61) p2Step5 = .next t) ∧ (∃ t, exec .esclit p2Step5 = .next t) ∧
    (∃ t, exec (.ptr 3 0) p2Step5 = .next t) ∧ ∃ t, exec (.ptr 4 0) p2Step5 = .next t :=
  ⟨exists_next (by decide), exists_next (by decide), exists_next (by decide), exists_next (by decide)⟩

theorem witness_StepRunsDecodedToken : SdecompTurn p2Step5 ∧
    decode (p2Step5.host.dinBytes.drop p2Step5.decomp.cur) = .ok (.ptr 3 0, []) := by
  unfold SdecompTurn
  decide

/-- Two bytes left, and one. -/
theorem witness_TruncatedMarkerFaults :
    (let s := decoding [0x61, 0xCC, 0x12] 1 [0x61]
     SdecompTurn s ∧ s.host.dinBytes[s.decomp.cur]? = some 0xCC ∧ s.host.dinLen - s.decomp.cur < 3) ∧
    (let s := decoding [0xCC] 0 []
     SdecompTurn s ∧ s.host.dinBytes[s.decomp.cur]? = some 0xCC ∧ s.host.dinLen - s.decomp.cur < 3) := by
  unfold SdecompTurn
  decide

/-- Before the last token, with more to come, at the end of the empty stream, and before a fault. -/
theorem witness_DecompStopsAtEnd :
    (SdecompTurn p2Step5 ∧ p2Step5.decomp.cur ≤ p2Step5.host.dinLen ∧ ∃ t, step p2Step5 = .next t) ∧
    (∃ t, step (decoding [0x61, 0x62] 0 []) = .next t ∧ (t.decomp.st == .busy) = true) ∧
    (∃ t, step (decoding [] 0 []) = .next t ∧ (t.decomp.st == .done) = true) ∧
    ∃ t, step (decoding [0xCC] 0 []) = .next t ∧ (t.decomp.st == .fault) = true :=
  ⟨⟨⟨rfl, by decide, rfl⟩, by decide, exists_next (by decide)⟩, exists_next_with (by decide),
    exists_next_with (by decide), exists_next_with (by decide)⟩

/-- The empty stream, one that ends in DONE and one that ends in FAULT. -/
theorem witness_DecompressTerminates : Ready (startDecomp (loaded [] [])) ∧ Ready (startDecomp (loaded [] [0x61])) ∧
    Ready (startDecomp (loaded [] [0xCC])) ∧ (startDecomp (loaded [] [0x61])).host.compStart = false ∧
    (startDecomp (loaded [] [0x61])).host.decompStart = true :=
  ⟨ready_startDecomp (ready_loaded _ _), ready_startDecomp (ready_loaded _ _), ready_startDecomp (ready_loaded _ _),
    rfl, rfl⟩

theorem witness_DecompressComputesExpand :
    (let s := startDecomp (loaded [] [0x61, 0xCC, 0x00, 0x01])
     Ready s ∧ s.host.compStart = false ∧ s.host.decompStart = true ∧
       expand s.params.overlap s.host.dinBytes = .ok [0x61, 0x61, 0x61, 0x61, 0x61, 0x61]) ∧
    (let s := startDecomp (loaded [] [0xCC, 0x00, 0x01])
     expand s.params.overlap s.host.dinBytes = .error .referenceOutOfRange) ∧
    (let s := startDecomp (loaded [] [0xCC, 0x00])
     expand s.params.overlap s.host.dinBytes = .error .truncatedInput) :=
  ⟨⟨ready_startDecomp (ready_loaded _ _), rfl, rfl, by decide⟩, by decide, by decide⟩

theorem witness_NoMarkerCopiedUnchanged :
    let s := startDecomp (loaded [] [0x61, 0x62])
    Ready s ∧ s.host.compStart = false ∧ s.host.decompStart = true ∧ (0xCC : Byte) ∉ s.host.dinBytes :=
  ⟨ready_startDecomp (ready_loaded _ _), rfl, rfl, by decide⟩

/-- At the bound: one byte read, one written; a `PTR 0,19` next. -/
theorem witness_OutputGrowthBound :
    let s := decoding [0x61, 0xCC, 0x00, 0x0F] 1 [0x61]
    SdecompTurn s ∧ s.decomp.doutLen = 19 * (s.decomp.cur / 3) + s.decomp.cur % 3 ∧ ∃ t, step s = .next t :=
  ⟨⟨rfl, by decide, rfl⟩, by decide, exists_next (by decide)⟩

/-- An output of 4097 bytes of which only the oldest has been written. -/
def oldest (v : Byte) : State :=
  { State.reset with decomp := { Sdecomp.reset with dout := [(0, v)], doutLen := 4097 } }

theorem oldest_readDout (v : Byte) (a : Nat) (h : 1 ≤ a) :
    (oldest v).decomp.readDout a = Config.unwrittenByte .dout a := by
  show (Memory.read [(0, v)] a).getD _ = _
  rw [Memory.read, if_neg (show ¬ 0 = a by omega)]
  rfl

/-- Two outputs that differ just out of reach of the largest offset. -/
theorem witness_PtrReadsLast4096 : (oldest 1).decomp.doutLen = (oldest 2).decomp.doutLen ∧
    (∀ a, a < (oldest 1).decomp.doutLen → (oldest 1).decomp.doutLen ≤ a + 4096 →
      (oldest 1).decomp.readDout a = (oldest 2).decomp.readDout a) ∧
    (oldest 1).params.overlap = (oldest 2).params.overlap ∧ (∃ t, exec (.ptr 4095 0) (oldest 1) = .next t) ∧
    ∃ t, exec (.ptr 4095 0) (oldest 2) = .next t := by
  refine ⟨rfl, fun a _ h => ?_, rfl, exists_next (by decide), exists_next (by decide)⟩
  have ha : 1 ≤ a := by
    have h' : 4097 ≤ a + 4096 := h
    omega
  rw [oldest_readDout 1 a ha, oldest_readDout 2 a ha]

/-! ### Witnesses: status, reset, the host, the invariants -/

/-- `rst` asserted while SCOMP is BUSY. -/
theorem witness_ResetFromAnyState :
    let s := { p4Step7 with host := { p4Step7.host with rst := true } }
    s.host.rst = true ∧ s.comp.st = .busy := by decide

/-- V-H3: a start while BUSY. -/
theorem witness_StartIgnoredWhileBusy : (startDecomp p4Step7).busy = true := by decide

/-- SCOMP moves while SDECOMP has stopped, SDECOMP moves while SCOMP has, each start, and the state with both BUSY (log
entry 7). -/
theorem witness_StoppedEngineKeepsState :
    (p4Step7.host.rst = false ∧ p4Step7.comp.st = .busy ∧ p4Step7.decomp.st ≠ .busy ∧ ∃ t, step p4Step7 = .next t) ∧
    (p2Step5.host.rst = false ∧ p2Step5.comp.st ≠ .busy ∧ ∃ t, step p2Step5 = .next t) ∧
    (∃ t, step (startComp (loaded [0x61] [])) = .next t) ∧ (∃ t, step (startDecomp (loaded [] [0x61])) = .next t) ∧
    (let s := { p4Step7 with decomp := p2Step5.decomp }
     s.host.rst = false ∧ s.comp.st = .busy ∧ s.decomp.st = .busy ∧ ∃ t, step s = .next t) :=
  ⟨⟨by decide, by decide, by decide, exists_next (by decide)⟩, ⟨by decide, by decide, exists_next (by decide)⟩,
    exists_next (by decide), exists_next (by decide), by decide, by decide, by decide, exists_next (by decide)⟩

theorem witness_HostSideUntouched : ∃ t, step p4Step7 = .next t := exists_next (by decide)

/-- `OUT_CAP` passed by a match step, `LEN_BITS` by a LIT and by an accepted start (a `cin_len` that the bound never held), and a
machine with neither bound. -/
theorem witness_StopsOnlyAtBounds :
    step (withParams { lenBits := none, outCap := some 8, overlap := .replicate } p4Step7) = .refused .outCapExceeded ∧
    step (withParams { lenBits := some 1, outCap := none, overlap := .replicate } (decoding [0x61, 0x61] 1 [0x61])) =
      .refused .lenBitsExceeded ∧
    step (withParams { lenBits := some 1, outCap := none, overlap := .replicate } (startComp (loaded abc2 []))) =
      .refused .lenBitsExceeded ∧
    State.reset.params.outCap = none ∧ State.reset.params.lenBits = none := ⟨rfl, rfl, rfl, rfl, rfl⟩

/-- One short of the room a LIT, an ESCLIT and a PTR need: in `OUT_CAP`, in `LEN_BITS` for `dout_len`, in `LEN_BITS` for `cur`;
the PTR without overlap under policy `fault`, and with it under `replicate`. -/
theorem witness_BoundsRefuse :
    (let s := withParams { lenBits := some 3, outCap := some 6, overlap := .replicate } (decoding [0x61] 0 abc2)
     s.params.capFits (s.decomp.doutLen + 1) = false) ∧
    (let s := withParams { lenBits := some 1, outCap := some 2, overlap := .replicate } (decoding [0x61] 0 [0x61])
     s.params.capFits (s.decomp.doutLen + 1) = true ∧ s.params.posFits (s.decomp.doutLen + 1) = false) ∧
    (let s := withParams { lenBits := some 1, outCap := some 1, overlap := .replicate } (decoding [0x61, 0x61] 1 [])
     s.params.capFits (s.decomp.doutLen + 1) = true ∧ s.params.posFits (s.decomp.doutLen + 1) = true ∧
       s.params.posFits (s.decomp.cur + 1) = false ∧ s.params.posFits (s.decomp.cur + 3) = false) ∧
    (let s := withParams { lenBits := none, outCap := some 7, overlap := .fault } p2Step5
     (3 : BitVec 12).toNat + 1 ≤ s.decomp.doutLen ∧ (0 : BitVec 4).toNat + 4 ≤ (3 : BitVec 12).toNat + 1 ∧
       s.params.capFits (s.decomp.doutLen + ((0 : BitVec 4).toNat + 4)) = false) ∧
    (let s := withParams { lenBits := some 3, outCap := some 9, overlap := .replicate } p2Step5
     (3 : BitVec 12).toNat + 1 ≤ s.decomp.doutLen ∧ s.params.overlap = .replicate ∧
       s.params.capFits (s.decomp.doutLen + ((1 : BitVec 4).toNat + 4)) = true ∧
       s.params.posFits (s.decomp.doutLen + ((1 : BitVec 4).toNat + 4)) = false) ∧
    (let s := withParams { lenBits := some 4, outCap := some 8, overlap := .fault }
       { p2Step5 with decomp := { p2Step5.decomp with cur := 13 } }
     (3 : BitVec 12).toNat + 1 ≤ s.decomp.doutLen ∧ (0 : BitVec 4).toNat + 4 ≤ (3 : BitVec 12).toNat + 1 ∧
       s.params.capFits (s.decomp.doutLen + ((0 : BitVec 4).toNat + 4)) = true ∧
       s.params.posFits (s.decomp.doutLen + ((0 : BitVec 4).toNat + 4)) = true ∧
       s.params.posFits (s.decomp.cur + 3) = false) := by decide

/-- Both engines IDLE, each BUSY, SDECOMP in FAULT, SDECOMP in DONE with one byte and SCOMP with three, and V-H6: `rst` during a
compress. -/
theorem witness_OutputReadsByStatus : State.reset.comp.st = .idle ∧ State.reset.decomp.st = .idle ∧
    p4Step7.comp.st = .busy ∧ p2Step5.decomp.st = .busy ∧
    (nextOf (step (decoding [0xCC] 0 []))).map (fun t => (t.decomp.st, t.hostDoutLen, t.hostDout 0)) =
      some (.fault, none, none) ∧
    (nextOf (step { p4Step7 with host := { p4Step7.host with rst := true } })).map
      (fun t => (t.hostCoutLen, t.hostDoutLen, t.hostCout 0)) = some (some 0, some 0, none) ∧
    (nextOf (step (decoding [0x61] 0 []))).map (fun t => (t.hostDoutLen, t.hostDout 0, t.hostDout 1)) =
      some (some 1, some 0x61, none) ∧
    (nextOf (step (coding [0xCC] [] [0xCC] 1 []))).map (fun t => (t.hostCoutLen, t.hostCout 2, t.hostCout 3)) =
      some (some 3, some 0, none) := by decide

theorem witness_ForbiddenMovesRefused : p4Step7.comp.st = .busy ∧ p2Step5.decomp.st = .busy ∧ p2Step5.busy = true := by
  decide

/-- V-H8: the ports driven while both engines are stopped; a write of `CIN` while SDECOMP is BUSY. -/
theorem witness_HostMovesLeaveEngines : (∃ t, hostMove (.driveEncode 4096 4) State.reset = .next t) ∧
    (∃ t, hostMove (.writeCin 0 0x61) p2Step5 = .next t) ∧ State.reset.busy = false :=
  ⟨exists_next (by decide), exists_next (by decide), by decide⟩

/-- The other engine BUSY, and the last length that fits beside the first that does not. -/
theorem witness_InputWriteEffect :
    (let s := withParams { lenBits := some 4, outCap := none, overlap := .replicate } p2Step5
     s.comp.st ≠ .busy ∧ s.params.posFits s.host.cinLen = true ∧ s.params.posFits 15 = true ∧
       s.params.posFits 16 = false) ∧
    (let s := withParams { lenBits := some 4, outCap := none, overlap := .replicate } p4Step7
     s.decomp.st ≠ .busy ∧ s.params.posFits s.host.dinLen = true ∧ s.params.posFits 15 = true ∧
       s.params.posFits 16 = false) := by decide

theorem inv_p4Step7 : Inv p4Step7 :=
  ⟨⟨by decide, by decide, by decide, by decide⟩, ⟨by decide, by decide⟩, ⟨by decide, by decide, by decide⟩,
    ⟨by decide, by decide, by decide, by decide, by decide⟩, ⟨by decide, by decide⟩,
    ⟨by decide, by decide, by decide, by decide, by decide, by decide, by decide, by decide⟩⟩

theorem inv_p2Step5 : Inv p2Step5 :=
  ⟨⟨by decide, by decide, by decide, by decide⟩, ⟨by decide, by decide⟩, ⟨by decide, by decide, by decide⟩,
    ⟨by decide, by decide, by decide, by decide, by decide⟩, ⟨by decide, by decide⟩,
    ⟨by decide, by decide, by decide, by decide, by decide, by decide, by decide, by decide⟩⟩

/-- A running compress and a running decompress. -/
theorem witness_InvariantKept : (Inv p4Step7 ∧ ∃ t, step p4Step7 = .next t) ∧ Inv p2Step5 ∧
    ∃ t, step p2Step5 = .next t := ⟨⟨inv_p4Step7, exists_next (by decide)⟩, inv_p2Step5, exists_next (by decide)⟩

theorem witness_HostMovesKeepInvariant : Inv p2Step5 ∧ ∃ t, hostMove (.writeCin 0 0x61) p2Step5 = .next t :=
  ⟨inv_p2Step5, exists_next (by decide)⟩

end Sys2Proof.Tests
end

section
/-! PROOFS. The scope's statements (00_scope.md): where a step stops, which bound a token passes, what a host's write of an
input does. -/

namespace Sys2Proof.Machine

open Safety

/-! ### One boundary, case by case -/

/-- Reset goes before all (R200). -/
theorem step_reset {s : State} (h : s.host.rst = true) : step s = .next s.applyReset :=
  if_pos h

/-- With neither engine BUSY, `comp_start` is accepted (R40). -/
theorem step_compStart {s : State} (hr : s.host.rst = false) (hb : s.busy = false) (hc : s.host.compStart = true) :
    step s = acceptComp s.dropStrobes := by
  simp [step, stepBoundary, hr, hb, hc]

/-- With neither engine BUSY and no `comp_start`, `decomp_start` is accepted (R41). -/
theorem step_decompStart {s : State} (hr : s.host.rst = false) (hb : s.busy = false) (hc : s.host.compStart = false)
    (hd : s.host.decompStart = true) : step s = acceptDecomp s.dropStrobes := by
  simp [step, stepBoundary, hr, hb, hc, hd]

/-- With neither engine BUSY and no start, nothing changes (R43). -/
theorem step_stopped {s : State} (hr : s.host.rst = false) (hb : s.busy = false) (hc : s.host.compStart = false)
    (hd : s.host.decompStart = false) : step s = .next s := by
  simp [step, stepBoundary, hr, hb, hc, hd]

/-! ### A step beside the step without the bounds -/

/-- A step beside the same step without the bounds (R13): no engine's length or position is at stake, or SCOMP moves, or
SDECOMP does. -/
theorem step_bounded (s : State) :
    (∃ u, step (unbounded s) = .next u ∧ step s = .next { u with params := s.params }) ∨
    CompBounded s (step s) (step (unbounded s)) ∨ DecompBounded s (step s) (step (unbounded s)) := by
  cases hr : s.host.rst with
  | true => exact .inl ⟨_, step_reset (s := unbounded s) hr, step_reset hr⟩
  | false =>
    by_cases hcb : s.comp.st = .busy
    · rw [step_comp ⟨hr, hcb⟩, step_comp (s := unbounded s) ⟨hr, hcb⟩]
      exact .inr (.inl (compAdvance_bounded s.dropStrobes))
    by_cases hdb : s.decomp.st = .busy
    · rw [step_decomp ⟨hr, hcb, hdb⟩, step_decomp (s := unbounded s) ⟨hr, hcb, hdb⟩]
      exact .inr (.inr (decompAdvance_bounded s.dropStrobes))
    have hb : s.busy = false := by simp [State.busy, hcb, hdb]
    cases hc : s.host.compStart with
    | true =>
      rw [step_compStart hr hb hc, step_compStart (s := unbounded s) hr hb hc]
      exact .inr (.inl (commitComp_bounded s.dropStrobes _))
    | false =>
      cases hd : s.host.decompStart with
      | true =>
        rw [step_decompStart hr hb hc hd, step_decompStart (s := unbounded s) hr hb hc hd]
        exact .inr (.inr (commitDecomp_bounded s.dropStrobes _))
      | false => exact .inl ⟨_, step_stopped (s := unbounded s) hr hb hc hd, step_stopped hr hb hc hd⟩

/-- Without the bounds there is always a next state. -/
theorem step_unbounded_next (s : State) : ∃ u, step (unbounded s) = .next u := by
  rcases step_bounded s with ⟨u, hu, _⟩ | ⟨u, hu, _⟩ | ⟨u, hu, _⟩ <;> exact ⟨u, hu⟩

/-- A machine with the bounds at their defaults (R13) has none to take away. -/
theorem unbounded_eq_self {s : State} (hc : s.params.outCap = none) (hl : s.params.lenBits = none) :
    unbounded s = s := by
  obtain ⟨⟨lenBits, outCap, overlap⟩, host, comp, decomp⟩ := s
  cases hc
  cases hl
  rfl

/-- Settles O52, from the step beside the unbounded step: a refusal names what of the moving engine does not fit. -/
theorem stopsOnlyAtBounds : Obligations.StopsOnlyAtBounds := by
  intro s
  refine ⟨fun r => (nomatch r), fun hc hl => ?_, ?_⟩
  · have h := step_unbounded_next s
    rwa [unbounded_eq_self hc hl] at h
  · rcases step_bounded s with ⟨u, hu, h⟩ | ⟨u, hu, hf, h⟩ | ⟨u, hu, hf, h⟩ <;> refine ⟨u, hu, ?_⟩
    · exact .inl h
    · rcases h with h | ⟨h, hcap⟩ | ⟨h, hpos⟩
      · exact .inl h
      · exact .inr (.inl ⟨h, .inl ⟨hf, hcap⟩⟩)
      · exact .inr (.inr ⟨h, .inl ⟨hf, hpos⟩⟩)
    · rcases h with h | ⟨h, hcap⟩ | ⟨h, hpos⟩
      · exact .inl h
      · exact .inr (.inl ⟨h, .inr ⟨hf, hcap⟩⟩)
      · exact .inr (.inr ⟨h, .inr ⟨hf, hpos⟩⟩)

/-! ### Tokens past a bound -/

/-- Which refusal the write-back of a state with output length `n` and position `pos` answers (R13). -/
theorem commitDecomp_refused {s : State} {d : Sdecomp} {n pos : Nat} (hn : d.doutLen = n) (hp : d.cur = pos) :
    (s.params.capFits n = false → s.commitDecomp d = .refused .outCapExceeded) ∧
    (s.params.capFits n = true → s.params.posFits n = false ∨ s.params.posFits pos = false →
      s.commitDecomp d = .refused .lenBitsExceeded) := by
  subst hn hp
  unfold State.commitDecomp
  constructor
  · intro hc
    simp [hc]
  · rintro hc (h | h) <;> simp [hc, h]

/-- A PTR in range whose overlap is allowed is the write-back of its copy (R156). -/
theorem execPtr_commit {s : State} {o : BitVec 12} {l : BitVec 4} (h1 : o.toNat + 1 ≤ s.decomp.doutLen)
    (h2 : s.params.overlap = .replicate ∨ l.toNat + 4 ≤ o.toNat + 1) :
    execPtr o l s =
      s.commitDecomp ((s.decomp.copyBack (ptrLength l) (ptrStart o s.decomp.doutLen)).advance 3) := by
  unfold execPtr
  rw [if_neg, if_neg]
  · rw [Bool.and_eq_true, beq_iff_eq, ptrOverlaps_iff]
    rintro ⟨hf, ho⟩
    rcases h2 with hr | hle
    · cases hr.symm.trans hf
    · omega
  · rw [ptrOutOfRange_iff]
    omega

/-- Settles O53: each token is a write-back, and its length and position are those the write-back refuses. -/
theorem boundsRefuse : Obligations.BoundsRefuse := by
  refine ⟨fun s v => commitDecomp_refused rfl rfl, fun s => commitDecomp_refused rfl rfl, fun s o l h1 h2 => ?_⟩
  obtain ⟨hlen, hcur, _⟩ := copyBack_regs s.decomp (ptrLength l) (ptrStart o s.decomp.doutLen)
  show (_ → execPtr o l s = _) ∧ (_ → _ → execPtr o l s = _)
  rw [execPtr_commit h1 h2]
  exact commitDecomp_refused hlen (congrArg (· + 3) hcur)

/-! ### The host's writes of its inputs -/

/-- A change of the compress input while SCOMP is not BUSY: made when the length fits, refused when not (R204, R13). -/
theorem changeCompInput_stopped {s : State} (hb : s.comp.st ≠ .busy) (h : HostSide) :
    (s.params.posFits h.cinLen = true → s.changeCompInput h = .next { s with host := h }) ∧
    (s.params.posFits h.cinLen = false → s.changeCompInput h = .refused .lenBitsExceeded) := by
  unfold State.changeCompInput
  rw [if_neg hb]
  exact ⟨fun hf => if_pos hf, fun hf => if_neg (by simp [hf])⟩

/-- A change of the decompress input while SDECOMP is not BUSY: made when the length fits, refused when not (R204, R13). -/
theorem changeDecompInput_stopped {s : State} (hb : s.decomp.st ≠ .busy) (h : HostSide) :
    (s.params.posFits h.dinLen = true → s.changeDecompInput h = .next { s with host := h }) ∧
    (s.params.posFits h.dinLen = false → s.changeDecompInput h = .refused .lenBitsExceeded) := by
  unfold State.changeDecompInput
  rw [if_neg hb]
  exact ⟨fun hf => if_pos hf, fun hf => if_neg (by simp [hf])⟩

/-- Settles O57: each move is a change of its engine's input, and a byte's write reads back by `Memory.read_write`. -/
theorem inputWriteEffect : Obligations.InputWriteEffect := by
  intro s a n v
  refine ⟨fun hb => ⟨fun hf => ⟨_, (changeCompInput_stopped hb _).1 hf, fun x => Memory.read_write _ a x v⟩, ?_⟩,
    fun hb => ⟨fun hf => ⟨_, (changeDecompInput_stopped hb _).1 hf, fun x => Memory.read_write _ a x v⟩, ?_⟩⟩
  · exact changeCompInput_stopped hb { s.host with cinLen := n }
  · exact changeDecompInput_stopped hb { s.host with dinLen := n }

end Sys2Proof.Machine
end

section
/-! PROOFS. The statements of 10_state.md, the invariants first: what a step keeps of the host's side and of a stopped engine,
SCOMP's stores, and the machine's invariant engine by engine. -/

namespace Sys2Proof.Machine

open Safety

/-! ### What a step leaves of the host's side and of a stopped engine -/

/-- Strobes that nobody asserts are over already (R40, R41). -/
theorem strobesOver_self {h : HostSide} (hc : h.compStart = false) (hd : h.decompStart = false) : strobesOver h = h := by
  cases h
  cases hc
  cases hd
  rfl

/-- Settles O51: in each case of a step the host's side loses its strobes and nothing else. -/
theorem hostSideUntouched : Obligations.HostSideUntouched := by
  intro s t h
  rcases step_cases h with ⟨_, rfl⟩ | ⟨_, _, ha⟩ | ⟨_, _, _, ha⟩ | ⟨_, _, _, _, _, rfl⟩ | ⟨_, _, _, _, _, _, rfl⟩ |
    ⟨_, _, _, hcs, hds, rfl⟩
  · exact ⟨rfl, rfl⟩
  · obtain ⟨hp, hh, _⟩ := compAdvance_frame ha
    exact ⟨hp, hh⟩
  · obtain ⟨hp, hh, _⟩ := decompAdvance_frame ha
    exact ⟨hp, hh⟩
  · exact ⟨rfl, rfl⟩
  · exact ⟨rfl, rfl⟩
  · exact ⟨rfl, (strobesOver_self hcs hds).symm⟩

/-- Settles O50: an advance touches the moving engine alone, and a start the engine it starts. -/
theorem stoppedEngineKeepsState : Obligations.StoppedEngineKeepsState := by
  intro s t hr h
  rcases step_cases h with ⟨hr', _⟩ | ⟨_, hc, ha⟩ | ⟨_, hc, hd, ha⟩ | ⟨_, hc, hd, hcs, _, rfl⟩ |
    ⟨_, hc, hd, hcs, hds, _, rfl⟩ | ⟨_, hc, hd, _, _, rfl⟩
  · cases hr.symm.trans hr'
  · obtain ⟨_, _, hkeep⟩ := compAdvance_frame ha
    exact ⟨fun _ => .inl hkeep, fun hc' => absurd hc hc', fun _ => hkeep⟩
  · obtain ⟨_, _, hkeep⟩ := decompAdvance_frame ha
    exact ⟨fun hd' => absurd hd hd', fun _ => .inl hkeep, fun hc' => absurd hc' hc⟩
  · exact ⟨fun _ => .inl rfl, fun _ => .inr ⟨hd, hcs⟩, fun _ => rfl⟩
  · exact ⟨fun _ => .inr ⟨hc, hcs, hds⟩, fun _ => .inl rfl, fun hc' => absurd hc' hc⟩
  · exact ⟨fun _ => .inl rfl, fun _ => .inl rfl, fun _ => rfl⟩

/-! ### SCOMP's stores follow its input -/

/-- A step of a compress, its first one included: an advance of a BUSY SCOMP, or the accepted start (R40, R125). -/
theorem step_compress {s t : State} (hr : s.host.rst = false) (h : step s = .next t)
    (hb : s.comp.st = .busy ∨ t.comp.st = .busy) :
    (s.comp.st = .busy ∧ compAdvance s.dropStrobes = .next t) ∨
    (s.comp.st ≠ .busy ∧ t = { s.dropStrobes with comp := startedComp s }) := by
  rcases step_cases h with ⟨hr', _⟩ | ⟨_, hc, ha⟩ | ⟨_, hc, _, ha⟩ | ⟨_, hc, _, _, _, rfl⟩ | ⟨_, hc, _, _, _, _, rfl⟩ |
    ⟨_, hc, _, _, _, rfl⟩
  · cases hr.symm.trans hr'
  · exact .inl ⟨hc, ha⟩
  · obtain ⟨_, _, hkeep⟩ := decompAdvance_frame ha
    rw [hkeep] at hb
    exact absurd hb (not_or_intro hc hc)
  · exact .inr ⟨hc, rfl⟩
  · exact absurd hb (not_or_intro hc hc)
  · exact absurd hb (not_or_intro hc hc)

theorem follows_writtenBack {s : State} {c : Scomp} (hF : Follows s.host c) :
    Follows s.host (State.settleComp { s with comp := c }).comp :=
  follows_settleComp { s with comp := c } hF

/-- An advance of SCOMP keeps its stores following the input (R28, R29). -/
theorem follows_compAdvance {s t : State} (hF : Follows s.host s.comp) (h : compAdvance s = .next t) :
    Follows t.host t.comp := by
  have hw : s.comp.w.length ≤ 4096 := by rw [(follows_lengths hF).1]; exact Nat.min_le_right _ _
  rw [(compAdvance_frame h).2.1]
  rcases compAdvance_spec hw h with ⟨_, rfl⟩ | ⟨v, rest, hb, _, rfl, _⟩ | ⟨r, tr, _, hr, _, rfl, _⟩
  · exact follows_settleComp s hF
  · exact follows_writtenBack (follows_literalStep hF hb).1
  · exact follows_writtenBack (follows_matchMove tr.toList r.length hF hr).1

/-- Settles O22: an accepted start establishes `Follows`, and each advance keeps it. -/
theorem storesFollowInput : Obligations.StoresFollowInput := by
  intro s t hr h hF hb
  rcases step_compress hr h hb with ⟨hc, ha⟩ | ⟨_, rfl⟩
  · exact follows_compAdvance (s := s.dropStrobes) (follows_strobesOver (hF hc)) ha
  · exact follows_strobesOver (follows_started s).1

/-! ### One advance of SCOMP, literal and match in one form -/

/-- SCOMP after a step that consumes `n` bytes of the buffer and appends the token `bs` (R129, R132). -/
def Scomp.consume (h : HostSide) (n : Nat) (bs : List Byte) (c : Scomp) : Scomp :=
  { w := newest 4096 (c.w ++ c.b.take n)
    b := c.b.drop n ++ (h.cinBytes.drop c.rd).take n
    rd := c.rd + min n (h.cinLen - c.rd)
    cout := Memory.writeBytes c.cout c.coutLen bs
    coutLen := c.coutLen + bs.length
    st := c.st
    cause := c.cause }

theorem literalStep_eq_consume {c : Scomp} {v : Byte} {rest : List Byte} (h : HostSide) (hb : c.b = v :: rest)
    (hw : c.w.length ≤ 4096) : c.literalStep h = c.consume h 1 (literalOut v) := by
  rw [literalStep_eq h hb, windowPush_eq c.w v hw, Scomp.consume, hb]
  rfl

theorem literalOut_length_le (v : Byte) : (literalOut v).length ≤ 3 := by
  unfold literalOut
  split <;> simp

/-- An advance of SCOMP consumes at least one byte and appends at most three, or only makes the termination test. -/
theorem compAdvance_consume {s t : State} (hw : s.comp.w.length ≤ 4096) (h : compAdvance s = .next t) :
    t = s.settleComp ∨
    ∃ n bs, 1 ≤ n ∧ n ≤ s.comp.b.length ∧ bs.length ≤ 3 ∧ (s.comp.consume s.host n bs).Fits s.params ∧
      t = State.settleComp { s with comp := s.comp.consume s.host n bs } := by
  rcases compAdvance_spec hw h with ⟨_, rfl⟩ | ⟨v, rest, hb, _, rfl, hfit⟩ | ⟨r, tr, hf, hr, _, rfl, hfit⟩
  · exact .inl rfl
  · rw [literalStep_eq_consume s.host hb hw] at hfit ⊢
    exact .inr ⟨1, literalOut v, le_rfl, by simp [hb], literalOut_length_le v, hfit, rfl⟩
  · have hmove := matchMove_eq s.comp s.host tr.toList r.length hr hw
    rw [hmove] at hfit ⊢
    have hmin := (find_some hw hf).1
    exact .inr ⟨r.length, tr.toList, by omega, hr, le_rfl, hfit, rfl⟩

/-- The buffer stays behind `rd`, and the consumed count grows by the bytes consumed (R32). -/
theorem Scomp.consume_consumed {c : Scomp} {n : Nat} (h : HostSide) (bs : List Byte) (hn : n ≤ c.b.length)
    (hb : c.b.length ≤ c.rd) :
    (c.consume h n bs).b.length ≤ (c.consume h n bs).rd ∧ (c.consume h n bs).consumed = c.consumed + n := by
  have hlen : (c.consume h n bs).b.length = c.b.length - n + min n (h.cinLen - c.rd) := by simp [Scomp.consume]
  have hrd : (c.consume h n bs).rd = c.rd + min n (h.cinLen - c.rd) := rfl
  unfold Scomp.consumed
  omega

/-- Settles O25: each byte consumed pays for three bytes of output. -/
theorem outputAtMostTriple : Obligations.OutputAtMostTriple := by
  intro s t hturn hw hb hlen h
  rw [step_comp hturn] at h
  rcases compAdvance_consume (s := s.dropStrobes) hw h with rfl | ⟨n, bs, hn1, hn, hbs, _, rfl⟩
  · simpa [State.settleComp_consumed] using ⟨hb, hlen⟩
  · obtain ⟨hb', hcons⟩ := Scomp.consume_consumed s.dropStrobes.host bs hn hb
    have hlen' : (s.comp.consume s.dropStrobes.host n bs).coutLen = s.comp.coutLen + bs.length := rfl
    rw [State.settleComp_consumed, State.settleComp_b, State.settleComp_rd, State.settleComp_coutLen]
    refine ⟨hb', ?_⟩
    show (s.comp.consume s.dropStrobes.host n bs).coutLen ≤ 3 * (s.comp.consume s.dropStrobes.host n bs).consumed
    rw [State.dropStrobes_comp] at hcons
    omega

/-! ### The invariant, engine by engine -/

/-- The part of the invariant about the host's inputs. -/
structure HostSide.Ok (p : Config.Params) (h : HostSide) : Prop where
  cin : Memory.wf h.cin = true
  din : Memory.wf h.din = true
  cinFits : p.posFits h.cinLen = true
  dinFits : p.posFits h.dinLen = true

/-- The part of the invariant about SCOMP, over an input of `n` bytes. -/
structure Scomp.Ok (p : Config.Params) (n : Nat) (c : Scomp) : Prop where
  dense : Memory.dense c.cout c.coutLen = true
  window : c.w.length ≤ 4096
  buffer : c.b.length ≤ 29
  rd : c.st = .busy → c.rd ≤ n
  buffered : c.st = .busy → c.b.length ≤ c.rd
  st : c.st ≠ .fault
  cause : c.cause = .none
  idle : c.st = .idle → c = Scomp.reset
  fits : c.Fits p

/-- The part of the invariant about SDECOMP, over a stream of `n` bytes. -/
structure Sdecomp.Ok (p : Config.Params) (n : Nat) (d : Sdecomp) : Prop where
  dense : Memory.dense d.dout d.doutLen = true
  cur : d.st = .busy → d.cur ≤ n
  cause : d.cause = .none ↔ d.st ≠ .fault
  own : d.cause ≠ .invalidParameters ∧ d.cause ≠ .malformedPointer
  idle : d.st = .idle → d = Sdecomp.reset
  fits : d.Fits p

/-- The invariant is that of its parts, with one engine BUSY at most. -/
theorem inv_iff (s : State) :
    Inv s ↔ s.host.Ok s.params ∧ s.comp.Ok s.params s.host.cinLen ∧ s.decomp.Ok s.params s.host.dinLen ∧
      ¬ (s.comp.st = .busy ∧ s.decomp.st = .busy) := by
  constructor
  · rintro ⟨sp, ff, po, stt, id, bo⟩
    exact ⟨⟨sp.cin, sp.din, bo.cinLen, bo.dinLen⟩,
      ⟨sp.cout, ff.window, ff.buffer, po.rd, po.buffered, stt.compSt, stt.compCause, id.comp,
        bo.coutCap, bo.coutLen, bo.rd⟩,
      ⟨sp.dout, po.cur, stt.decompCause, stt.decompOwn, id.decomp, bo.doutCap, bo.doutLen, bo.cur⟩, stt.one⟩
  · rintro ⟨h, c, d, one⟩
    obtain ⟨ccap, clen, crd⟩ := c.fits
    obtain ⟨dcap, dlen, dcur⟩ := d.fits
    exact ⟨⟨h.cin, h.din, c.dense, d.dense⟩, ⟨c.window, c.buffer⟩, ⟨c.rd, c.buffered, d.cur⟩,
      ⟨one, c.st, c.cause, d.cause, d.own⟩, ⟨c.idle, d.idle⟩,
      ⟨h.cinFits, h.dinFits, crd, clen, dcur, dlen, ccap, dcap⟩⟩

theorem HostSide.Ok.strobesOver {p : Config.Params} {h : HostSide} (ok : h.Ok p) : (strobesOver h).Ok p :=
  ⟨ok.cin, ok.din, ok.cinFits, ok.dinFits⟩

/-! #### SCOMP's part -/

theorem Scomp.ok_reset (p : Config.Params) (n : Nat) : Scomp.reset.Ok p n :=
  ⟨rfl, Nat.zero_le _, Nat.zero_le _, nofun, nofun, nofun, rfl, fun _ => rfl,
    (zero_fits p).2, (zero_fits p).1, (zero_fits p).1⟩

theorem startedComp_ok {s : State} (hfit : (startedComp s).Fits s.params) :
    (startedComp s).Ok s.params s.host.cinLen :=
  ⟨rfl, Nat.zero_le _, by simp [startedComp], fun _ => Nat.min_le_right _ _, fun _ => by simp [startedComp],
    nofun, rfl, nofun, hfit⟩

theorem Scomp.Ok.done {p : Config.Params} {n : Nat} {c : Scomp} (ok : c.Ok p n) : Scomp.Ok p n { c with st := .done } :=
  ⟨ok.dense, ok.window, ok.buffer, nofun, nofun, nofun, ok.cause, nofun, ok.fits⟩

/-- The termination test keeps SCOMP's part (R134). -/
theorem Scomp.Ok.settle {p : Config.Params} {n : Nat} {s : State} (ok : s.comp.Ok p n) : s.settleComp.comp.Ok p n := by
  unfold State.settleComp
  split
  · exact ok.done
  · exact ok

theorem Scomp.Ok.consume {p : Config.Params} {h : HostSide} {c : Scomp} (ok : c.Ok p h.cinLen) (hb : c.st = .busy)
    {n : Nat} {bs : List Byte} (hn : n ≤ c.b.length) (hfit : (c.consume h n bs).Fits p) :
    (c.consume h n bs).Ok p h.cinLen where
  dense := Memory.dense_writeBytes ok.dense bs
  window := by
    show (newest 4096 (c.w ++ c.b.take n)).length ≤ 4096
    rw [newest_length]
    exact Nat.min_le_right _ _
  buffer := by
    have := ok.buffer
    simp [Scomp.consume]
    omega
  rd := fun _ => by
    have := ok.rd hb
    show c.rd + min n (h.cinLen - c.rd) ≤ h.cinLen
    omega
  buffered := fun _ => (Scomp.consume_consumed h bs hn (ok.buffered hb)).1
  st := ok.st
  cause := ok.cause
  idle := fun hi => nomatch hb.symm.trans hi
  fits := hfit

/-- An advance keeps SCOMP's part. -/
theorem compAdvance_ok {s t : State} (ok : s.comp.Ok s.params s.host.cinLen) (hb : s.comp.st = .busy)
    (h : compAdvance s = .next t) : t.comp.Ok s.params s.host.cinLen := by
  rcases compAdvance_consume ok.window h with rfl | ⟨n, bs, _, hn, _, hfit, rfl⟩
  · exact ok.settle
  · exact Scomp.Ok.settle (s := { s with comp := _ }) (ok.consume hb hn hfit)

/-! #### SDECOMP's part -/

theorem Sdecomp.ok_reset (p : Config.Params) (n : Nat) : Sdecomp.reset.Ok p n :=
  ⟨rfl, nofun, by decide, by decide, fun _ => rfl, (zero_fits p).2, (zero_fits p).1, (zero_fits p).1⟩

theorem startedDecomp_ok (p : Config.Params) (n : Nat) : startedDecomp.Ok p n :=
  ⟨rfl, fun _ => Nat.zero_le _, by decide, by decide, nofun, (zero_fits p).2, (zero_fits p).1, (zero_fits p).1⟩

/-- The termination test keeps SDECOMP's part (R160). -/
theorem Sdecomp.Ok.settle {p : Config.Params} {n : Nat} {s : State} (ok : s.decomp.Ok p n) :
    s.settleDecomp.decomp.Ok p n := by
  unfold State.settleDecomp
  split
  · rename_i hb
    have hst : s.decomp.st = .busy := by
      rw [Bool.and_eq_true, beq_iff_eq] at hb
      exact hb.1
    have hcause : s.decomp.cause = .none := ok.cause.2 (by rw [hst]; decide)
    exact ⟨ok.dense, nofun, ⟨fun _ => nofun, fun _ => hcause⟩, ok.own, nofun, ok.fits⟩
  · exact ok

/-- Fault entry with one of SDECOMP's own causes keeps its part (R176, R180). -/
theorem Sdecomp.Ok.raise {p : Config.Params} {n : Nat} {d : Sdecomp} (ok : d.Ok p n) {e : Cause}
    (he : e = .truncatedInput ∨ e = .referenceOutOfRange) : Sdecomp.Ok p n { d with cause := e, st := .fault } := by
  have hown : (e = .none ↔ Status.fault ≠ .fault) ∧ e ≠ .invalidParameters ∧ e ≠ .malformedPointer := by
    rcases he with rfl | rfl <;> decide
  exact ⟨ok.dense, nofun, hown.1, hown.2, nofun, ok.fits⟩

/-- A token keeps `DOUT` dense and what it holds within the bounds (R13, R54). -/
theorem exec_dense_fits {i : Instr} {s t : State} (hd : Memory.dense s.decomp.dout s.decomp.doutLen = true)
    (hf : s.decomp.Fits s.params) (h : exec i s = .next t) :
    Memory.dense t.decomp.dout t.decomp.doutLen = true ∧ t.decomp.Fits s.params := by
  rcases exec_cases h with ⟨v, _, rfl, hfit⟩ | ⟨_, rfl, hfit⟩ | ⟨o, l, _, _, _, hfit, rfl⟩ | ⟨_, _, _, rfl, _⟩
  · exact ⟨Memory.dense_writeBytes hd [v], hfit⟩
  · exact ⟨Memory.dense_writeBytes hd [Config.esc], hfit⟩
  · exact ⟨copyBack_dense _ _ _ hd, hfit⟩
  · exact ⟨hd, hf⟩

/-- A token moves `cur` by its length and leaves status and cause, or it is a PTR's fault (R152, R154, R156, R158). -/
theorem exec_position {i : Instr} {s t : State} (h : exec i s = .next t) :
    (t.decomp.cur = s.decomp.cur + i.length ∧ t.decomp.st = s.decomp.st ∧ t.decomp.cause = s.decomp.cause ∧
      t.host = s.host) ∨ t = s.raiseDecomp .referenceOutOfRange := by
  rcases exec_tokenOut h with ⟨_, _, _, hcur, hst, hcause, hhost, _⟩ | ⟨_, he⟩
  · exact .inl ⟨hcur, hst, hcause, hhost⟩
  · exact .inr he

/-- A token read from the stream ends within it (R76, R160). -/
theorem decode_within {s : State} {i : Instr} {rest : List Byte} (hc : s.decomp.cur < s.host.dinLen)
    (h : decode (s.host.dinBytes.drop s.decomp.cur) = .ok (i, rest)) : s.decomp.cur + i.length ≤ s.host.dinLen := by
  obtain ⟨_, hlen, _⟩ := decode_drop h
  rw [List.length_drop, HostSide.dinBytes_length] at hlen
  omega

/-- A decoded token keeps SDECOMP's part. -/
theorem exec_ok {i : Instr} {rest : List Byte} {s t : State} (ok : s.decomp.Ok s.params s.host.dinLen)
    (hb : s.decomp.st = .busy) (hc : s.decomp.cur < s.host.dinLen)
    (hd : decode (s.host.dinBytes.drop s.decomp.cur) = .ok (i, rest)) (h : exec i s = .next t) :
    t.decomp.Ok s.params s.host.dinLen := by
  obtain ⟨hdense, hfit⟩ := exec_dense_fits ok.dense ok.fits h
  rcases exec_position h with ⟨hcur, hst, hcause, _⟩ | rfl
  · have hin := decode_within hc hd
    exact ⟨hdense, fun _ => hcur ▸ hin, by rw [hcause, hst]; exact ok.cause, by rw [hcause]; exact ok.own,
      fun hi => (nomatch hb.symm.trans (hst.symm.trans hi)), hfit⟩
  · exact ok.raise (.inr rfl)

/-- An advance keeps SDECOMP's part. -/
theorem decompAdvance_ok {s t : State} (ok : s.decomp.Ok s.params s.host.dinLen) (hb : s.decomp.st = .busy)
    (h : decompAdvance s = .next t) : t.decomp.Ok s.params s.host.dinLen := by
  rcases decompAdvance_spec h with ⟨_, rfl⟩ | ⟨hc, i, rest, u, hd, he, rfl⟩ | ⟨_, _, rfl⟩
  · exact ok.settle
  · exact (exec_ok ok hb hc hd he).settle
  · exact ok.raise (.inl rfl)

/-- Settles O58: each case of a step keeps the host's part, and the part of the engine it moves. -/
theorem invariantKept : Obligations.InvariantKept := by
  intro s t hinv h
  obtain ⟨hp, hh⟩ := hostSideUntouched s t h
  rw [inv_iff] at hinv ⊢
  obtain ⟨hostOk, compOk, decompOk, hone⟩ := hinv
  rw [hp, hh]
  refine ⟨hostOk.strobesOver, ?_⟩
  show t.comp.Ok s.params s.host.cinLen ∧ t.decomp.Ok s.params s.host.dinLen ∧ _
  rcases step_cases h with ⟨_, rfl⟩ | ⟨_, hc, ha⟩ | ⟨_, hc, hd, ha⟩ | ⟨_, _, hd, _, hfit, rfl⟩ |
    ⟨_, hc, _, _, _, _, rfl⟩ | ⟨_, _, _, _, _, rfl⟩
  · exact ⟨Scomp.ok_reset _ _, Sdecomp.ok_reset _ _, nofun⟩
  · have hkeep : t.decomp = s.decomp := (compAdvance_frame ha).2.2
    rw [hkeep]
    exact ⟨compAdvance_ok (s := s.dropStrobes) compOk hc ha, decompOk, fun hb => hone ⟨hc, hb.2⟩⟩
  · have hkeep : t.comp = s.comp := (decompAdvance_frame ha).2.2
    rw [hkeep]
    exact ⟨compOk, decompAdvance_ok (s := s.dropStrobes) decompOk hd ha, fun hb => hc hb.1⟩
  · exact ⟨startedComp_ok hfit, decompOk, fun hb => hd hb.2⟩
  · exact ⟨compOk, startedDecomp_ok _ _, fun hb => hc hb.1⟩
  · exact ⟨compOk, decompOk, hone⟩

/-- Settles O59: every part of the invariant holds of what reset leaves. -/
theorem invariantAtReset : Obligations.InvariantAtReset := by
  exact (inv_iff _).2 ⟨⟨rfl, rfl, rfl, rfl⟩, Scomp.ok_reset _ _, Sdecomp.ok_reset _ _, nofun⟩

end Sys2Proof.Machine
end

section
/-! PROOFS. The statements of 10_state.md, the stores and outputs: `Push`, a compress as a function of its input, SDECOMP's
position, and how far back a PTR reads. -/

namespace Sys2Proof.Machine

open Safety

/-! ### The window -/

/-- Settles O17, from `windowPush_eq`: the push is the newest 4096 bytes of the longer sequence. -/
theorem pushKeepsNewest : Obligations.PushKeepsNewest := by
  intro w v hw
  refine ⟨rfl, ?_, windowPush_eq w v hw⟩
  rw [windowPush_eq w v hw, newest_length, List.length_append, List.length_singleton]

/-! ### A compress is a function of its input -/

/-- `Refill` reads the input's bytes alone. -/
theorem Scomp.refill_congr {h h' : HostSide} (hin : h.cinBytes = h'.cinBytes) (n : Nat) (c : Scomp) :
    c.refill h n = c.refill h' n := by
  have hlen : h.cinLen = h'.cinLen := by rw [← h.cinBytes_length, hin, h'.cinBytes_length]
  unfold Scomp.refill
  simp only [cin_slice, hin]
  rw [hlen]

/-- The literal step reads the input's bytes alone. -/
theorem Scomp.literalStep_congr {h h' : HostSide} (hin : h.cinBytes = h'.cinBytes) (c : Scomp) :
    c.literalStep h = c.literalStep h' := by
  unfold Scomp.literalStep
  split
  · rfl
  · exact Scomp.refill_congr hin 1 _

theorem startedComp_congr {s s' : State} (hin : s.host.cinBytes = s'.host.cinBytes) : startedComp s = startedComp s' := by
  have hlen : s.host.cinLen = s'.host.cinLen := by
    rw [← s.host.cinBytes_length, hin, s'.host.cinBytes_length]
  have hb := cin_slice s.host 0 29
  rw [hin, ← cin_slice s'.host 0 29] at hb
  exact congrArg₂ (fun b k => Scomp.mk [] b k [] 0 .busy .none) hb (congrArg (min 29) hlen)

theorem commitComp_of_unbounded {s : State} (hl : s.params.lenBits = none) (hc : s.params.outCap = none) (c : Scomp) :
    s.commitComp c = .next { s with comp := c } :=
  commitComp_next ⟨capFits_unbounded hc _, posFits_unbounded hl _, posFits_unbounded hl _⟩

/-- A token of SCOMP depends on SCOMP's state and input alone. -/
theorem compToken_congr {s s' t : State} (hl : s'.params.lenBits = none) (hc : s'.params.outCap = none)
    (hcomp : s.comp = s'.comp) (hin : s.host.cinBytes = s'.host.cinBytes) (h : compToken s = .next t) :
    ∃ t', compToken s' = .next t' ∧ t'.comp = t.comp := by
  rcases compToken_cases h with ⟨hf, rfl, _⟩ | ⟨r, tr, hf, he, _, rfl⟩ | ⟨r, hf, he, rfl⟩ <;> rw [hcomp] at hf
  · refine ⟨{ s' with comp := s'.comp.literalStep s'.host }, ?_, by rw [hcomp, Scomp.literalStep_congr hin]⟩
    simp only [compToken, hf]
    exact commitComp_of_unbounded hl hc _
  · refine ⟨{ s' with comp := ((s'.comp.append tr.toList).moveFront r.length).refill s'.host r.length }, ?_,
      by rw [hcomp, Scomp.refill_congr hin]⟩
    simp only [compToken, hf, Scomp.matchStep, he]
    exact commitComp_of_unbounded hl hc _
  · refine ⟨s'.raiseComp .invalidParameters, ?_, by simp [hcomp]⟩
    simp only [compToken, hf, Scomp.matchStep, he]

theorem settleComp_congr {s s' : State} (h : s.comp = s'.comp) : s.settleComp.comp = s'.settleComp.comp := by
  unfold State.settleComp State.compMore
  rw [h]
  split
  · rfl
  · exact h

/-- An advance of SCOMP depends on SCOMP's state and input alone. -/
theorem compAdvance_congr {s s' t : State} (hl : s'.params.lenBits = none) (hc : s'.params.outCap = none)
    (hcomp : s.comp = s'.comp) (hin : s.host.cinBytes = s'.host.cinBytes) (h : compAdvance s = .next t) :
    ∃ t', compAdvance s' = .next t' ∧ t'.comp = t.comp := by
  have hmore : s'.compMore = !s.comp.b.isEmpty := by rw [hcomp, State.compMore]
  unfold compAdvance
  rcases compAdvance_cases h with ⟨hb, u, hu, rfl⟩ | ⟨hb, rfl⟩
  · obtain ⟨u', hu', hu''⟩ := compToken_congr hl hc hcomp hin hu
    exact ⟨u'.settleComp, by rw [if_pos (by simpa [hmore] using hb), hu']; rfl, settleComp_congr hu''⟩
  · exact ⟨s'.settleComp, if_neg (by simp [hmore, hb]), settleComp_congr hcomp.symm⟩

/-- SCOMP has the machine to itself: no bounds, no reset, no start, SDECOMP not BUSY. -/
structure CompAlone (s : State) : Prop where
  lenBits : s.params.lenBits = none
  outCap : s.params.outCap = none
  rst : s.host.rst = false
  compStart : s.host.compStart = false
  decompStart : s.host.decompStart = false
  decomp : s.decomp.st ≠ .busy

/-- Alone, SCOMP advances while BUSY and the machine stands still otherwise. -/
theorem CompAlone.step_eq {s : State} (h : CompAlone s) :
    step s = if s.comp.st = .busy then compAdvance s else .next s := by
  have hdrop : s.dropStrobes = s := by
    obtain ⟨params, host, comp, decomp⟩ := s
    exact congrArg (State.mk params · comp decomp) (strobesOver_self h.compStart h.decompStart)
  split
  · rename_i hb
    rw [step_comp ⟨h.rst, hb⟩, hdrop]
  · rename_i hb
    exact step_stopped h.rst (by simp [State.busy, hb, h.decomp]) h.compStart h.decompStart

/-- An engine with the machine to itself keeps it to itself. -/
theorem CompAlone.next {s t : State} (h : CompAlone s) (hs : step s = .next t) :
    CompAlone t ∧ t.host.cinBytes = s.host.cinBytes := by
  obtain ⟨hp, hh⟩ := hostSideUntouched s t hs
  have hd : t.decomp = s.decomp := by
    refine ((stoppedEngineKeepsState s t h.rst hs).1 h.decomp).resolve_right fun ⟨_, _, hds⟩ => ?_
    cases h.decompStart.symm.trans hds
  refine ⟨⟨hp ▸ h.lenBits, hp ▸ h.outCap, ?_, ?_, ?_, hd ▸ h.decomp⟩, ?_⟩ <;> rw [hh]
  · exact h.rst
  · rfl
  · rfl
  · rfl

/-- Two machines at the same point of a compress of the same input, each alone with it. -/
structure SameCompress (s s' : State) : Prop where
  alone : CompAlone s
  alone' : CompAlone s'
  comp : s.comp = s'.comp
  input : s.host.cinBytes = s'.host.cinBytes

/-- A step of the one machine is matched by a step of the other. -/
theorem SameCompress.step {s s' t : State} (same : SameCompress s s') (h : Machine.step s = .next t) :
    ∃ t', Machine.step s' = .next t' ∧ SameCompress t t' := by
  obtain ⟨ha, ha', hcomp, hin⟩ := same
  obtain ⟨t', ht', hcomp'⟩ : ∃ t', Machine.step s' = .next t' ∧ t'.comp = t.comp := by
    have hs := h
    rw [ha.step_eq] at hs
    rw [ha'.step_eq, ← hcomp]
    by_cases hb : s.comp.st = .busy
    · rw [if_pos hb] at hs ⊢
      exact compAdvance_congr ha'.lenBits ha'.outCap hcomp hin hs
    · rw [if_neg hb] at hs ⊢
      cases hs
      exact ⟨s', rfl, hcomp.symm⟩
  obtain ⟨hat, hint⟩ := ha.next h
  obtain ⟨hat', hint'⟩ := ha'.next ht'
  exact ⟨t', ht', hat, hat', hcomp'.symm, by rw [hint, hint', hin]⟩

/-- A run of the one machine is matched by a run of the other. -/
theorem SameCompress.runs {n : Nat} {s s' t : State} (same : SameCompress s s') (h : Runs n s t) :
    ∃ t', Runs n s' t' ∧ t'.comp = t.comp := by
  induction n generalizing s s' with
  | zero =>
    cases h
    exact ⟨s', rfl, same.comp.symm⟩
  | succ n ih =>
    obtain ⟨u, hu, hrun⟩ := h
    obtain ⟨u', hu', same'⟩ := same.step hu
    obtain ⟨t', hrun', hcomp⟩ := ih same' hrun
    exact ⟨t', ⟨u', hu', hrun'⟩, hcomp⟩

/-- A ready machine accepts `comp_start` (R40, R126). -/
theorem step_compStart_ready {s : State} (h : Ready s) (hc : s.host.compStart = true) :
    step s = .next { s.dropStrobes with comp := startedComp s } := by
  rw [step_compStart h.rst (by simp [State.busy, h.comp, h.decomp]) hc]
  exact commitComp_of_unbounded (s := s.dropStrobes) h.lenBits h.outCap (startedComp s)

/-- Started on its own, SCOMP has the machine to itself. -/
theorem compAlone_started {s : State} (h : Ready s) : CompAlone { s.dropStrobes with comp := startedComp s } :=
  ⟨h.lenBits, h.outCap, h.rst, rfl, rfl, h.decomp⟩

/-- Settles O27: both machines accept the start into the same state of SCOMP, and go on step by step alike. -/
theorem compressDependsOnInputOnly : Obligations.CompressDependsOnInputOnly := by
  rintro s s' t n hs hs' hc hc' hin ⟨u, hu, hrun⟩
  rw [step_compStart_ready hs hc] at hu
  cases hu
  obtain ⟨t', hrun', hcomp⟩ := SameCompress.runs
    ⟨compAlone_started hs, compAlone_started hs', startedComp_congr hin, hin⟩ hrun
  exact ⟨t', ⟨_, step_compStart_ready hs' hc', hrun'⟩, hcomp⟩

/-! ### SDECOMP's position -/

/-- The termination test of a position within the stream: DONE at its end, BUSY before it (R160). -/
theorem settleDecomp_position {s : State} (hb : s.decomp.st = .busy) (hc : s.decomp.cur ≤ s.host.dinLen) :
    (s.settleDecomp.decomp.st = .done ∧ s.settleDecomp.decomp.cur = s.settleDecomp.host.dinLen) ∨
    (s.settleDecomp.decomp.st = .busy ∧ s.settleDecomp.decomp.cur < s.settleDecomp.host.dinLen) := by
  obtain ⟨hmore, hend⟩ := State.settleDecomp_busy s hb
  by_cases hlt : s.decomp.cur < s.host.dinLen
  · rw [hmore hlt]
    exact .inr ⟨hb, hlt⟩
  · rw [hend hlt]
    exact .inl ⟨rfl, hc.antisymm (Nat.not_lt.1 hlt)⟩

/-- Settles O40: a token ends within the stream, and the termination test tells its end from the rest. -/
theorem decompStopsAtEnd : Obligations.DecompStopsAtEnd := by
  intro s t hturn hcur h
  have hb : s.decomp.st = .busy := hturn.2.2
  rw [step_decomp hturn] at h
  refine (and_iff_right_of_imp ?_).2 ?_
  · rintro (⟨_, hc⟩ | ⟨_, hc⟩ | ⟨_, hc, _⟩)
    · exact hc.le
    · exact hc.le
    · exact hc.le
  rcases decompAdvance_spec h with ⟨_, rfl⟩ | ⟨hc, i, rest, u, hd, he, rfl⟩ | ⟨hc, _, rfl⟩
  · exact (settleDecomp_position (s := s.dropStrobes) hb hcur).imp_right .inl
  · rcases exec_position he with ⟨hcur', hst, _, hhost⟩ | rfl
    · have hin := decode_within hc hd
      refine (settleDecomp_position (hst.trans hb) ?_).imp_right .inl
      rw [hcur', hhost]
      exact hin
    · rw [State.settleDecomp_stopped _ (by simp)]
      exact .inr (.inr ⟨rfl, hc, rfl, rfl, rfl, .inr rfl⟩)
  · exact .inr (.inr ⟨rfl, hc, rfl, rfl, rfl, .inl rfl⟩)

/-! ### How far back a PTR reads -/

/-- Two outputs of one length that read the same from position `lo` on. -/
structure Sdecomp.AgreeFrom (lo : Nat) (d d' : Sdecomp) : Prop where
  len : d.doutLen = d'.doutLen
  read : ∀ a, lo ≤ a → a < d.doutLen → d.readDout a = d'.readDout a

theorem Sdecomp.readDout_append (d : Sdecomp) (v : Byte) (a : Nat) :
    (d.append [v]).readDout a = if a = d.doutLen then v else d.readDout a := by
  unfold Sdecomp.readDout Memory.byteAt
  rw [Sdecomp.read_append]
  split <;> rfl

/-- A copy from within the agreement keeps it (R156). -/
theorem Sdecomp.AgreeFrom.copyBack {lo : Nat} {d d' : Sdecomp} (h : AgreeFrom lo d d') {n src : Nat} (hlo : lo ≤ src)
    (hsrc : src < d.doutLen) : AgreeFrom lo (d.copyBack n src) (d'.copyBack n src) := by
  induction n generalizing d d' src with
  | zero => exact h
  | succ n ih =>
    have hv := h.read src hlo hsrc
    refine ih ⟨by simp [h.len], fun a ha hlt => ?_⟩ (by omega) (by simp; omega)
    rw [Sdecomp.readDout_append, Sdecomp.readDout_append, ← h.len, hv]
    split
    · rfl
    · simp at hlt
      exact h.read a ha (by omega)

/-- When a PTR faults: a reference out of range, or an overlap the policy forbids (R158, R159). -/
def PtrFaults (policy : Config.OverlapPolicy) (o : BitVec 12) (l : BitVec 4) (doutLen : Nat) : Prop :=
  doutLen < o.toNat + 1 ∨ (policy = .fault ∧ o.toNat + 1 < l.toNat + 4)

/-- A PTR copies, or it faults (R156). -/
theorem exec_ptr_cases {o : BitVec 12} {l : BitVec 4} {s t : State} (h : exec (.ptr o l) s = .next t) :
    (¬ PtrFaults s.params.overlap o l s.decomp.doutLen ∧
      t = { s with decomp := (s.decomp.copyBack (l.toNat + 4) (s.decomp.doutLen - o.toNat - 1)).advance 3 }) ∨
    (PtrFaults s.params.overlap o l s.decomp.doutLen ∧ t = s.raiseDecomp .referenceOutOfRange) := by
  rcases exec_cases h with ⟨_, hi, _⟩ | ⟨hi, _⟩ | ⟨_, _, hi, hin, hov, _, rfl⟩ | ⟨_, _, hi, rfl, hbad⟩ <;> cases hi
  · exact .inl ⟨not_or_intro hin hov, rfl⟩
  · exact .inr ⟨hbad, rfl⟩

/-- Settles O45: the copy starts within the last 4096 bytes, so it carries their agreement over to what it appends. -/
theorem ptrReadsLast4096 : Obligations.PtrReadsLast4096 := by
  intro o l s s' t t' hlen hread hov h h'
  rcases exec_ptr_cases h with ⟨hok, rfl⟩ | ⟨hbad, rfl⟩
  · rcases exec_ptr_cases h' with ⟨_, rfl⟩ | ⟨hbad', _⟩
    · have ho : o.toNat < 4096 := o.isLt
      have hrange : ¬ s.decomp.doutLen < o.toNat + 1 := fun hout => hok (.inl hout)
      have hagree : Sdecomp.AgreeFrom (s.decomp.doutLen - 4096) s.decomp s'.decomp :=
        ⟨hlen, fun a ha hlt => hread a hlt (by omega)⟩
      obtain ⟨hlen', hread'⟩ := hagree.copyBack (n := l.toNat + 4) (src := s.decomp.doutLen - o.toNat - 1)
        (by omega) (by omega)
      rw [← hlen]
      exact ⟨hlen', fun a ha hlt => hread' a (by omega) hlt⟩
    · rw [← hlen, ← hov] at hbad'
      exact absurd hbad' hok
  · rcases exec_ptr_cases h' with ⟨hok', _⟩ | ⟨_, rfl⟩
    · rw [← hlen, ← hov] at hok'
      exact absurd hbad hok'
    · exact ⟨hlen, fun a ha hlt => absurd hlt (Nat.not_lt.2 ha)⟩

end Sys2Proof.Machine
end

section
/-! PROOFS. The statements of 10_state.md about the interface: PCODEC's ports and accessors, the finder's outputs, status and
reset values, the accepted `decomp_start`, the host's reads and moves. -/

namespace Sys2Proof.Machine

open Safety

/-! ### PCODEC's ports -/

/-- The two bytes of a 16-bit field, put together again (R56). -/
theorem fieldBytes_toNat {f : Nat} (h : f < 65536) :
    (BitVec.ofNat 8 (f / 256)).toNat * 256 + (BitVec.ofNat 8 (f % 256)).toNat = f := by
  rw [BitVec.toNat_ofNat, BitVec.toNat_ofNat]
  omega

/-- Settles O9: by cases on the operands being in ENCODE's bounds. -/
theorem encodePorts : Obligations.EncodePorts := by
  intro s o l
  by_cases hin : o < 4096 ∧ 4 ≤ l ∧ l ≤ 19
  · have hans : s.encAnswer = .ok _ := pcodecEncode_ok hin.1 hin.2
    have hfault : s.encFault = false := by rw [State.encFault, hans]; rfl
    have hout := congrArg Except.toOption hans
    rw [hfault]
    exact ⟨⟨nofun, fun hbad => by omega⟩, nofun, fun _ => ⟨_, hout, rfl, fieldBytes_toNat (f := o * 16 + (l - 4)) (by omega)⟩⟩
  · have hans : s.encAnswer = .error .invalidParameters :=
      ((pcodecEncode_cases ⟨o, l⟩).resolve_left fun ⟨ho, h4, h19, _⟩ => hin ⟨ho, h4, h19⟩).2
    have hfault : s.encFault = true := by rw [State.encFault, hans]; rfl
    rw [hfault]
    exact ⟨⟨fun _ => by omega, fun _ => rfl⟩, fun _ => by rw [State.encOut, hans]; rfl, nofun⟩

/-- DECODE on fewer than three bytes, and on three (R94, R95). -/
theorem pcodecDecode_eq (d : Triple) (count : Nat) :
    pcodecDecode d count = if count < 3 then .error .malformedPointer
      else .ok { offset := (d.b1.toNat * 256 + d.b2.toNat) / 16, length := (d.b1.toNat * 256 + d.b2.toNat) % 16 + 4 } := by
  simp [pcodecDecode]

/-- Settles O10: by cases on the count of valid bytes. -/
theorem decodePorts : Obligations.DecodePorts := by
  intro s f
  have hf : f < 65536 := by
    have h1 : s.host.decIn.b1.toNat < 256 := s.host.decIn.b1.isLt
    have h2 : s.host.decIn.b2.toNat < 256 := s.host.decIn.b2.isLt
    omega
  by_cases hc : s.host.decCount.toNat < 3
  · have hans : s.decAnswer = .error .malformedPointer := (pcodecDecode_eq _ _).trans (if_pos hc)
    have hfault : s.decFault = true := by rw [State.decFault, hans]; rfl
    rw [hfault]
    exact ⟨⟨fun _ => hc, fun _ => rfl⟩,
      fun _ => ⟨by rw [State.decOffset, hans]; rfl, by rw [State.decLength, hans]; rfl⟩, nofun⟩
  · have hans : s.decAnswer = .ok { offset := f / 16, length := f % 16 + 4 } := (pcodecDecode_eq _ _).trans (if_neg hc)
    have hfault : s.decFault = false := by rw [State.decFault, hans]; rfl
    have ho : (BitVec.ofNat 12 (f / 16)).toNat = f / 16 := by rw [BitVec.toNat_ofNat]; omega
    have hl : (BitVec.ofNat 5 (f % 16 + 4)).toNat = f % 16 + 4 := by rw [BitVec.toNat_ofNat]; omega
    rw [hfault]
    exact ⟨⟨nofun, fun h => absurd h hc⟩, nofun, fun _ =>
      ⟨_, _, by rw [State.decOffset, hans]; rfl, by rw [State.decLength, hans]; rfl, ho, hl, by omega, by omega⟩⟩

/-- Settles O12: the accessors' values, computed. -/
theorem accessorsConsistent : Obligations.AccessorsConsistent := by
  unfold Obligations.AccessorsConsistent
  decide

/-! ### The finder's outputs -/

/-- Where no FIND follows the finder has no answer (R45). -/
theorem mfAnswer_none {s : State} (h : ¬ ScompTurn s ∨ s.comp.b = []) : s.mfAnswer = none := by
  refine if_neg fun hall => ?_
  simp only [Bool.and_eq_true, Bool.not_eq_true', beq_iff_eq, List.isEmpty_eq_false_iff] at hall
  obtain ⟨⟨hr, hb⟩, hne⟩ := hall
  exact h.elim (fun hturn => hturn ⟨hr, hb⟩) hne

/-- Where a step of SCOMP follows the finder's answer is its FIND (R25). -/
theorem mfAnswer_turn {s : State} (h : ScompTurn s) (hb : s.comp.b ≠ []) :
    s.mfAnswer = some (find s.comp.w s.comp.b) := by
  refine if_pos ?_
  simp [h.1, h.2, hb]

/-- Settles O16: the three outputs are read off the finder's one answer. -/
theorem finderOutputs : Obligations.FinderOutputs := by
  intro s hw
  refine ⟨fun h => ?_, fun hturn => ⟨fun hb hf => ?_, fun r hf => ?_⟩⟩
  · simp [State.mfFound, State.mfOffset, State.mfLength, mfAnswer_none h]
  · simp [State.mfFound, State.mfOffset, State.mfLength, mfAnswer_turn hturn hb, hf]
  · obtain ⟨h4, h19, hlen, _, henc⟩ := find_some hw hf
    have hb : s.comp.b ≠ [] := by
      intro hnil
      rw [hnil, List.length_nil] at hlen
      omega
    have ho : r.offset < 4096 := by
      rcases pcodecEncode_cases r with ⟨ho, _⟩ | ⟨_, he⟩
      · exact ho
      · cases he.symm.trans henc
    have hans : s.mfAnswer = some (some r) := by rw [mfAnswer_turn hturn hb, hf]
    refine ⟨by rw [State.mfFound, hans]; rfl, _, _, by rw [State.mfOffset, hans]; rfl, by rw [State.mfLength, hans]; rfl,
      ?_, ?_⟩
    · rw [BitVec.toNat_ofNat]
      omega
    · rw [BitVec.toNat_ofNat]
      omega

/-! ### Status, reset, the accepted start -/

/-- No cause has a code past 4 (R176). -/
theorem Cause.code_lt (c : Cause) : c.code.toNat < 5 := by
  cases c <;> decide

/-- Settles O46: the codes by evaluation, and `Cause.code_lt`. -/
theorem statusAndCauseCodes : Obligations.StatusAndCauseCodes :=
  ⟨by decide, by decide, fun s => ⟨rfl, Cause.code_lt s.comp.cause, Cause.code_lt s.decomp.cause⟩⟩

/-- Settles O47: what reset leaves, by evaluation. -/
theorem resetValues : Obligations.ResetValues := ⟨rfl, rfl, rfl⟩

/-- Settles O29: the start is accepted, and the zeros it writes fit every bound. -/
theorem decompStartInitialises : Obligations.DecompStartInitialises := by
  intro s hr hc hd hcs hds
  rw [step_decompStart hr (by simp [State.busy, hc, hd]) hcs hds]
  obtain ⟨hpos, hcap⟩ := zero_fits s.params
  exact commitDecomp_next (s := s.dropStrobes) ⟨hcap, hpos, hpos⟩

/-! ### What the host reads and moves -/

/-- A position of `COUT` in DONE reads as the output's byte there (R42). -/
theorem hostCout_done {s : State} (h : s.comp.st = .done) (a : Nat) : s.hostCout a = s.comp.coutBytes[a]? := by
  rw [Scomp.coutBytes, Memory.readBytes_getElem?, State.hostCout, Nat.zero_add]
  simp only [h, true_and]

/-- A position of `DOUT` in DONE reads as the output's byte there (R42). -/
theorem hostDout_done {s : State} (h : s.decomp.st = .done) (a : Nat) : s.hostDout a = s.decomp.doutBytes[a]? := by
  rw [Sdecomp.doutBytes, Memory.readBytes_getElem?, State.hostDout, Nat.zero_add]
  simp only [h, true_and]

/-- Settles O54: each status shows or hides the length by `Status.showsLength`, and shows positions in DONE alone. -/
theorem outputReadsByStatus : Obligations.OutputReadsByStatus := by
  intro s a
  refine ⟨fun h => if_neg fun hr => h hr.1, fun h => if_neg fun hr => h hr.1, ?_, ?_, fun h => ?_, fun h => ?_,
    fun h => ⟨?_, hostCout_done h a⟩, fun h => ⟨?_, hostDout_done h a⟩,
    fun hr => ⟨_, step_reset hr, rfl, rfl, rfl, rfl⟩⟩
  · rintro (h | h) <;> rw [State.hostCoutLen, h] <;> rfl
  · rintro (h | h) <;> rw [State.hostDoutLen, h] <;> rfl
  · rw [State.hostCoutLen, h]; rfl
  · rw [State.hostDoutLen, h]; rfl
  · rw [State.hostCoutLen, h]; rfl
  · rw [State.hostDoutLen, h]; rfl

/-- A change of the compress input that is not refused (R207, R13). -/
theorem changeCompInput_eq_next {s t : State} {h : HostSide} (hn : s.changeCompInput h = .next t) :
    s.comp.st ≠ .busy ∧ s.params.posFits h.cinLen = true ∧ t = { s with host := h } := by
  unfold State.changeCompInput at hn
  split at hn
  · cases hn
  · rename_i hb
    split at hn
    · rename_i hfit
      exact ⟨hb, hfit, (Host.Outcome.next.inj hn).symm⟩
    · cases hn

/-- A change of the decompress input that is not refused (R207, R13). -/
theorem changeDecompInput_eq_next {s t : State} {h : HostSide} (hn : s.changeDecompInput h = .next t) :
    s.decomp.st ≠ .busy ∧ s.params.posFits h.dinLen = true ∧ t = { s with host := h } := by
  unfold State.changeDecompInput at hn
  split at hn
  · cases hn
  · rename_i hb
    split at hn
    · rename_i hfit
      exact ⟨hb, hfit, (Host.Outcome.next.inj hn).symm⟩
    · cases hn

/-- A drive of PCODEC's ports that is not refused (R208). -/
theorem drivePorts_eq_next {s t : State} {h : HostSide} (hn : s.drivePorts h = .next t) :
    s.busy = false ∧ t = { s with host := h } := by
  unfold State.drivePorts at hn
  split at hn
  · cases hn
  · rename_i hb
    exact ⟨Bool.eq_false_iff.2 hb, (Host.Outcome.next.inj hn).symm⟩

/-- A host move changes the host's side alone (R219). -/
theorem hostMove_eq_next {m : HostMove} {s t : State} (h : hostMove m s = .next t) : ∃ h', t = { s with host := h' } := by
  cases m with
  | driveRst level => exact ⟨_, (Host.Outcome.next.inj h).symm⟩
  | assertCompStart => exact ⟨_, (Host.Outcome.next.inj h).symm⟩
  | assertDecompStart => exact ⟨_, (Host.Outcome.next.inj h).symm⟩
  | writeCin a v => exact ⟨_, (changeCompInput_eq_next h).2.2⟩
  | setCinLen n => exact ⟨_, (changeCompInput_eq_next h).2.2⟩
  | writeDin a v => exact ⟨_, (changeDecompInput_eq_next h).2.2⟩
  | setDinLen n => exact ⟨_, (changeDecompInput_eq_next h).2.2⟩
  | driveEncode offset length => exact ⟨_, (drivePorts_eq_next h).2⟩
  | driveDecode bytes count => exact ⟨_, (drivePorts_eq_next h).2⟩

/-- Settles O56: a move that has a next state is a new host's side. -/
theorem hostMovesLeaveEngines : Obligations.HostMovesLeaveEngines := by
  refine ⟨fun m s t h => ?_, fun s => ⟨fun _ => rfl, rfl, rfl, fun hb o l d n => ⟨?_, ?_⟩⟩⟩
  · obtain ⟨h', rfl⟩ := hostMove_eq_next h
    exact ⟨rfl, rfl, rfl, rfl⟩
  · exact if_neg (by simp [hb])
  · exact if_neg (by simp [hb])

end Sys2Proof.Machine
end

section
/-! PROOFS. The statements of 30_encoding.md: the decoder and the encoder as inverses of each other, the classification of a
token and its operands, the opcode table's words, and the PTR format as PCODEC's pair. -/

namespace Sys2Proof

open Machine

/-! ### Well-formed tokens and their bytes -/

/-- A LIT is a token exactly when its byte is not the marker (R71). -/
@[simp] theorem Instr.wf_lit_iff (v : Byte) : (Instr.lit v).wf = true ↔ v ≠ 0xCC := by
  simp [Instr.wf]

/-- A PTR is a token exactly when its field is not zero (R72, R79). -/
@[simp] theorem Instr.wf_ptr_iff (o : BitVec 12) (l : BitVec 4) : (Instr.ptr o l).wf = true ↔ ¬ (o = 0 ∧ l = 0) := by
  rw [Instr.wf, Bool.not_eq_true', Bool.eq_false_iff, ne_eq, Bool.and_eq_true, beq_iff_eq, beq_iff_eq]

theorem highByte_pointerField (b1 b2 : Byte) : (pointerField b1 b2).extractLsb' 8 8 = b1 := by
  have h : b2.toNat < 2 ^ 8 := b2.isLt
  apply BitVec.eq_of_toNat_eq
  rw [highByte_toNat, pointerField_toNat]
  omega

theorem lowByte_pointerField (b1 b2 : Byte) : (pointerField b1 b2).extractLsb' 0 8 = b2 := by
  have h : b2.toNat < 2 ^ 8 := b2.isLt
  apply BitVec.eq_of_toNat_eq
  rw [lowByte_toNat, pointerField_toNat]
  omega

/-- The field of two bytes is zero exactly when both are. -/
theorem pointerField_zero_iff (b1 b2 : Byte) : pointerField b1 b2 = 0 ↔ b1 = 0 ∧ b2 = 0 := by
  rw [← bytes_zero_iff, highByte_pointerField, lowByte_pointerField]

/-- The marker and the field's two bytes, the high one first (R56, R72). -/
theorem encode_ptr (o : BitVec 12) (l : BitVec 4) :
    encode (.ptr o l) = [0xCC, (o ++ l).extractLsb' 8 8, (o ++ l).extractLsb' 0 8] := rfl

/-- The operands read from two field bytes are written as those bytes (R72, R77). -/
theorem encode_ptr_fields (b1 b2 : Byte) :
    encode (.ptr (fieldOffset (pointerField b1 b2)) (fieldLenbias (pointerField b1 b2))) = [0xCC, b1, b2] := by
  rw [encode_ptr, append_fields, highByte_pointerField, lowByte_pointerField]

/-! ### The decoder, row by row of the table -/

/-- The marker and two zero bytes are ESCLIT, never a pointer (R79). -/
theorem decode_esclit (rest : List Byte) : decode (0xCC :: 0 :: 0 :: rest) = .ok (.esclit, rest) :=
  (decode_long 0 0 rest).trans (if_pos ⟨rfl, rfl⟩)

/-- The marker and a field that is not zero are a PTR with the field's operands (R75, R77). -/
theorem decode_ptr {b1 b2 : Byte} (h : ¬ (b1 = 0 ∧ b2 = 0)) (rest : List Byte) : decode (0xCC :: b1 :: b2 :: rest) =
    .ok (.ptr (fieldOffset (pointerField b1 b2)) (fieldLenbias (pointerField b1 b2)), rest) :=
  (decode_long b1 b2 rest).trans (if_neg h)

/-- A PTR that is a token is read back from its bytes (R72, R77). -/
theorem decode_encode_ptr {o : BitVec 12} {l : BitVec 4} (h : ¬ (o = 0 ∧ l = 0)) (rest : List Byte) :
    decode (encode (.ptr o l) ++ rest) = .ok (.ptr o l, rest) := by
  have hbytes := fun hz => h ((fields_zero_iff o l).1 ((bytes_zero_iff (o ++ l)).1 hz))
  rw [encode_ptr]
  refine (decode_ptr hbytes rest).trans ?_
  rw [pointerField_bytes, fieldOffset_append, fieldLenbias_append]

/-- Settles O1: one row of the table for each constructor. -/
theorem decodeOfEncode : Obligations.DecodeOfEncode := by
  intro i rest hwf
  cases i with
  | esclit => exact decode_esclit rest
  | ptr o l => exact decode_encode_ptr ((Instr.wf_ptr_iff o l).1 hwf) rest
  | lit v => exact decode_lit ((Instr.wf_lit_iff v).1 hwf) rest

/-- Settles O2: `decode_cases`, each case's bytes being the token's own. -/
theorem encodeOfDecode : Obligations.EncodeOfDecode := by
  intro bs rest i h
  rcases decode_cases bs rest i h with ⟨v, hv, rfl, rfl⟩ | ⟨rfl, rfl⟩ | ⟨b1, b2, hz, rfl, rfl⟩
  · exact ⟨(Instr.wf_lit_iff v).2 hv, rfl⟩
  · exact ⟨rfl, rfl⟩
  · rw [encode_ptr_fields]
    refine ⟨(Instr.wf_ptr_iff _ _).2 fun hzero => hz ?_, rfl⟩
    rwa [← fields_zero_iff, append_fields, pointerField_zero_iff] at hzero

/-! ### Classification, operands and length -/

/-- The four cases of R75 at the head of a sequence. -/
theorem decode_head_cases (bs : List Byte) (b0 : Byte) (h : bs[0]? = some b0) :
    (b0 ≠ 0xCC ∧ decode bs = .ok (.lit b0, bs.drop 1)) ∨
    (b0 = 0xCC ∧ bs.length < 3 ∧ decode bs = .error .truncatedInput) ∨
    (b0 = 0xCC ∧ 3 ≤ bs.length ∧ (bs[1]? = some 0 ∧ bs[2]? = some 0) ∧ decode bs = .ok (.esclit, bs.drop 3)) ∨
    (b0 = 0xCC ∧ 3 ≤ bs.length ∧ ¬ (bs[1]? = some 0 ∧ bs[2]? = some 0) ∧
      ∃ o l, decode bs = .ok (.ptr o l, bs.drop 3)) := by
  obtain ⟨tail, rfl⟩ : ∃ tail, bs = b0 :: tail := by
    cases bs with
    | nil => cases h
    | cons b tail => exact ⟨tail, by cases h; rfl⟩
  by_cases hb : b0 = 0xCC
  · subst hb
    match tail with
    | [] => exact .inr (.inl ⟨rfl, by simp, rfl⟩)
    | [b1] => exact .inr (.inl ⟨rfl, by simp, rfl⟩)
    | b1 :: b2 :: rest =>
      by_cases hz : b1 = 0 ∧ b2 = 0
      · obtain ⟨rfl, rfl⟩ := hz
        exact .inr (.inr (.inl ⟨rfl, by simp, ⟨rfl, rfl⟩, decode_esclit rest⟩))
      · exact .inr (.inr (.inr ⟨rfl, by simp, by simpa using hz, _, _, decode_ptr hz rest⟩))
  · exact .inl ⟨hb, decode_lit hb tail⟩

/-- Settles O3: `decode_head_cases` of the sequence from position `c` on. -/
theorem classifyAtPosition : Obligations.ClassifyAtPosition := by
  intro S c b0 h
  have hcases := decode_head_cases (S.drop c) b0 (by rwa [List.getElem?_drop])
  simpa only [List.getElem?_drop, List.length_drop, List.drop_drop] using hcases

/-- Settles O4: `decode_ptr`, and the two fields as quotient and remainder by 16. -/
theorem ptrOperandsFromField : Obligations.PtrOperandsFromField := by
  intro b1 b2 rest hz
  have ho : ptrOffset (fieldOffset (pointerField b1 b2)) = (b1.toNat * 256 + b2.toNat) / 16 := by
    rw [ptrOffset_eq, fieldOffset_toNat, pointerField_toNat]
  have hl : ptrLength (fieldLenbias (pointerField b1 b2)) = (b1.toNat * 256 + b2.toNat) % 16 + 4 := by
    rw [ptrLength_eq, fieldLenbias_toNat, pointerField_toNat]
  obtain ⟨h4, h19⟩ := ptrLength_bounds (fieldLenbias (pointerField b1 b2))
  exact ⟨_, _, decode_ptr hz rest, ho, hl, Nat.le_of_lt_succ (ptrOffset_lt _), h4, h19, fun _ => rfl⟩

/-- Settles O5: the length by `decode_cases`, what is left by `decode_drop`. -/
theorem lengthFromFirstByte : Obligations.LengthFromFirstByte := by
  intro b0 tail rest i h
  obtain ⟨hrest, hlen, _, _⟩ := decode_drop h
  refine ⟨?_, hlen, hrest⟩
  rcases decode_cases _ _ _ h with ⟨v, hv, hbs, rfl⟩ | ⟨hbs, rfl⟩ | ⟨b1, b2, _, hbs, rfl⟩
  · obtain ⟨rfl, -⟩ := List.cons.inj hbs
    exact (if_neg hv).symm
  · obtain ⟨rfl, -⟩ := List.cons.inj hbs
    rfl
  · obtain ⟨rfl, -⟩ := List.cons.inj hbs
    rfl

/-! ### The opcode table's words -/

/-- A table word that holds a token's bytes decodes to the token, whatever bytes fill it up. -/
theorem decodeTableWord_of_bytes {nbits w : Nat} {i : Instr} {rest : List Byte} (hwf : i.wf = true)
    (h : tableBytes nbits w = encode i ++ rest) : decodeTableWord nbits w = some i := by
  rw [decodeTableWord, h, decodeOfEncode i rest hwf]

/-- The bytes of a 24-bit table word, bits 23:16 first (log entry 9). -/
theorem tableBytes_24 (w : Nat) :
    tableBytes 24 w = [BitVec.ofNat 8 (w / 65536), BitVec.ofNat 8 (w / 256), BitVec.ofNat 8 w] := by
  simp [tableBytes, List.range_succ]

/-- The byte of an 8-bit table word, filled up with zeros. -/
theorem tableBytes_8 (w : Nat) : tableBytes 8 w = [BitVec.ofNat 8 w, 0, 0] := by
  simp [tableBytes, List.range_succ]

/-- The table word of a PTR row holds the token's bytes (R72, R81). -/
theorem tableBytes_ptr (o : BitVec 12) (l : BitVec 4) :
    tableBytes 24 (0xCC * 2 ^ 16 + o.toNat * 2 ^ 4 + l.toNat) = encode (.ptr o l) := by
  have hword : 0xCC * 2 ^ 16 + o.toNat * 2 ^ 4 + l.toNat = 0xCC * 65536 + (o ++ l).toNat := by
    rw [appendField_toNat]
    omega
  have hf : (o ++ l).toNat < 65536 := (o ++ l).isLt
  have h0 : BitVec.ofNat 8 ((0xCC * 65536 + (o ++ l).toNat) / 65536) = 0xCC :=
    congrArg (BitVec.ofNat 8) (by omega : _ = 0xCC)
  have h1 : BitVec.ofNat 8 ((0xCC * 65536 + (o ++ l).toNat) / 256) = (o ++ l).extractLsb' 8 8 := by
    apply BitVec.eq_of_toNat_eq
    rw [BitVec.toNat_ofNat, highByte_toNat]
    omega
  have h2 : BitVec.ofNat 8 (0xCC * 65536 + (o ++ l).toNat) = (o ++ l).extractLsb' 0 8 := by
    apply BitVec.eq_of_toNat_eq
    rw [BitVec.toNat_ofNat, lowByte_toNat]
    omega
  rw [hword, tableBytes_24, h0, h1, h2, encode_ptr]

/-- Settles O7: each row's word holds its token's bytes. -/
theorem tableWordsDecode : Obligations.TableWordsDecode := by
  refine ⟨decodeTableWord_of_bytes (i := .esclit) rfl (tableBytes_24 _), fun o l h => ?_, fun v h => ?_⟩
  · exact decodeTableWord_of_bytes ((Instr.wf_ptr_iff o l).2 h) ((tableBytes_ptr o l).trans (List.append_nil _).symm)
  · refine decodeTableWord_of_bytes (rest := [0, 0]) ((Instr.wf_lit_iff v).2 h) ?_
    rw [tableBytes_8, BitVec.ofNat_toNat, BitVec.setWidth_eq]
    rfl

/-- Settles O6: the decoder run on each word. -/
theorem knownWordsDecode : Obligations.KnownWordsDecode := by
  unfold Obligations.KnownWordsDecode
  decide

/-! ### The token format and PCODEC -/

/-- ENCODE of a PTR's operands writes the token's bytes (R72, R90). -/
theorem pcodecEncode_ptr (o : BitVec 12) (l : BitVec 4) :
    pcodecEncode { offset := ptrOffset o, length := ptrLength l } =
      .ok { b0 := 0xCC, b1 := (o ++ l).extractLsb' 8 8, b2 := (o ++ l).extractLsb' 0 8 } := by
  rw [pcodecEncode_ok (ptrOffset_lt o) (ptrLength_bounds l), ptrOffset_eq, ptrLength_eq, Nat.add_sub_cancel,
    ← appendField_toNat, ← highByte_toNat, ← lowByte_toNat, BitVec.ofNat_toNat, BitVec.ofNat_toNat, BitVec.setWidth_eq,
    BitVec.setWidth_eq]

/-- DECODE of the bytes of a field answers the field's operands (R94). -/
theorem pcodecDecode_field (b0 : Byte) (f : BitVec 16) :
    pcodecDecode { b0 := b0, b1 := f.extractLsb' 8 8, b2 := f.extractLsb' 0 8 } 3 =
      .ok { offset := ptrOffset (fieldOffset f), length := ptrLength (fieldLenbias f) } := by
  rw [pcodecDecode_eq, if_neg (by decide), ptrOffset_eq, ptrLength_eq, fieldOffset_toNat, fieldLenbias_toNat,
    ← pointerField_toNat, pointerField_bytes]

/-- Settles O11: ENCODE writes the token's field, and DECODE reads the operands back from it. -/
theorem tokenIsCodecPair : Obligations.TokenIsCodecPair := by
  intro o l
  refine ⟨_, pcodecEncode_ptr o l, rfl, ?_⟩
  rw [pcodecDecode_field, fieldOffset_append, fieldLenbias_append]

end Sys2Proof
end

section
/-! PROOFS. The statements of 40_pointer_codec.md: ENCODE and DECODE are inverse to each other on the operands in bounds and
the triples that begin with the marker. -/

namespace Sys2Proof.Machine

/-- Operands in ENCODE's bounds are those of some field, the pair `(0, 4)` of ESCLIT's field included (R79, R90, R91). -/
theorem exists_ptr_operands {r : BackRef} (ho : r.offset < 4096) (h4 : 4 ≤ r.length) (h19 : r.length ≤ 19) :
    ∃ (o : BitVec 12) (l : BitVec 4), r = { offset := ptrOffset o, length := ptrLength l } := by
  obtain ⟨offset, length⟩ := r
  dsimp only at ho h4 h19
  refine ⟨BitVec.ofNat 12 offset, BitVec.ofNat 4 (length - 4), ?_⟩
  rw [ptrOffset_eq, ptrLength_eq, BitVec.toNat_ofNat, BitVec.toNat_ofNat, BackRef.mk.injEq]
  omega

/-- Whatever ENCODE answers begins with the marker, and DECODE gives ENCODE's operands back (R98 (a)). -/
theorem pcodecDecode_of_pcodecEncode {r : BackRef} {t : Triple} (h : pcodecEncode r = .ok t) :
    t.b0 = 0xCC ∧ pcodecDecode t 3 = .ok r := by
  rcases pcodecEncode_cases r with ⟨ho, h4, h19, _⟩ | ⟨_, herr⟩
  · obtain ⟨o, l, rfl⟩ := exists_ptr_operands ho h4 h19
    obtain ⟨t', henc, hbytes, hdec⟩ := tokenIsCodecPair o l
    obtain rfl : t' = t := Except.ok.inj (henc.symm.trans h)
    exact ⟨(List.cons.inj hbytes).1, hdec⟩
  · cases herr.symm.trans h

/-- DECODE of three bytes answers operands that ENCODE writes as the same field, after the marker (R98 (b)). -/
theorem pcodecEncode_of_pcodecDecode (d : Triple) :
    ∃ r, pcodecDecode d 3 = .ok r ∧ pcodecEncode r = .ok { b0 := 0xCC, b1 := d.b1, b2 := d.b2 } := by
  have hdec := pcodecDecode_field d.b0 (pointerField d.b1 d.b2)
  have henc := pcodecEncode_ptr (fieldOffset (pointerField d.b1 d.b2)) (fieldLenbias (pointerField d.b1 d.b2))
  rw [highByte_pointerField, lowByte_pointerField] at hdec
  rw [append_fields, highByte_pointerField, lowByte_pointerField] at henc
  exact ⟨_, hdec, henc⟩

/-- Settles O8: ENCODE is one-to-one as DECODE undoes it, and its image is whole as ENCODE undoes DECODE. -/
theorem codecRoundTrip : Obligations.CodecRoundTrip := by
  refine ⟨fun o l ho h4 h19 => ?_, pcodecEncode_of_pcodecDecode, fun r r' t h h' => ?_,
    fun r t h => (pcodecDecode_of_pcodecEncode h).1, fun x y => ?_⟩
  · have henc := pcodecEncode_ok (r := ⟨o, l⟩) (Nat.lt_succ_of_le ho) ⟨h4, h19⟩
    exact ⟨_, henc, (pcodecDecode_of_pcodecEncode henc).2⟩
  · obtain ⟨_, hdec⟩ := pcodecDecode_of_pcodecEncode h
    obtain ⟨_, hdec'⟩ := pcodecDecode_of_pcodecEncode h'
    exact Except.ok.inj (hdec.symm.trans hdec')
  · obtain ⟨r, _, henc⟩ := pcodecEncode_of_pcodecDecode { b0 := 0xCC, b1 := x, b2 := y }
    exact ⟨r, henc⟩

end Sys2Proof.Machine
end

section
/-! PROOFS. The statements of 41_match_finder.md: where the match FIND returns begins, how long it is, and when there is
none. -/

namespace Sys2Proof.Machine

open Safety

/-- FIND's match starts at the most recent position that matches, and has that position's run (R110, R111). -/
theorem find_eq_some {w b : List Byte} {r : BackRef} (h : find w b = some r) :
    ∃ i, i + r.offset + 1 = w.length ∧ r.length = matchRun w b i ∧ MatchesAt w b i ∧ ∀ j, i < j → ¬ MatchesAt w b j := by
  rcases find_cases w b with ⟨i, hi, hm, hlast, hsome⟩ | ⟨_, hnone⟩
  · obtain rfl := Option.some.inj (hsome.symm.trans h)
    exact ⟨i, by dsimp only; omega, rfl, hm, hlast⟩
  · cases hnone.symm.trans h

/-- FIND answers NoMatch exactly when no position matches (R110). -/
theorem find_eq_none_iff (w b : List Byte) : find w b = none ↔ ∀ i, ¬ MatchesAt w b i := by
  rcases find_cases w b with ⟨i, _, hm, _, hsome⟩ | ⟨hno, hnone⟩
  · exact ⟨fun h => (nomatch h.symm.trans hsome), fun hno => absurd hm (hno i)⟩
  · exact ⟨fun _ => hno, fun _ => hnone⟩

/-- Where a position matches the buffer holds `SM` bytes. -/
theorem matchesAt_buffer {w b : List Byte} {i : Nat} (h : MatchesAt w b i) : 4 ≤ b.length :=
  (matchRun_ge h).trans (matchRun_bounds w b i).2.2

/-- A run ends at 19 bytes, at the buffer's end, at the window's end, or at a mismatch (R113). -/
theorem matchRun_stop {w b : List Byte} {i : Nat} (hi : i ≤ w.length) :
    matchRun w b i = 19 ∨ matchRun w b i = b.length ∨ i + matchRun w b i = w.length ∨
      w[i + matchRun w b i]? ≠ b[matchRun w b i]? := by
  have hstop : matchRun w b i = 19 ∨ matchRun w b i = (w.drop i).length ∨ matchRun w b i = b.length ∨
      (w.drop i)[matchRun w b i]? ≠ b[matchRun w b i]? := commonRun_stop 19 (w.drop i) b
  rw [List.length_drop, List.getElem?_drop] at hstop
  rcases hstop with hlimit | hwindow | hbuffer | hmismatch
  · exact .inl hlimit
  · exact .inr (.inr (.inl (by omega)))
  · exact .inr (.inl hbuffer)
  · exact .inr (.inr (.inr hmismatch))

/-- Settles O13: the offset by where a position that matches can lie, the length by the bounds of its run. -/
theorem findResultRanges : Obligations.FindResultRanges := by
  intro w b r hw h
  obtain ⟨i, hpos, hrun, hm, _⟩ := find_eq_some h
  obtain ⟨h4, h19, hbuffer, henc⟩ := find_some hw h
  have hstart : w.length - 1 - r.offset = i := by omega
  have hoffset : 3 ≤ r.offset := by
    have hlt := matchesAt_lt hm
    omega
  have hwindow : r.length ≤ r.offset + 1 := by
    have hle := (matchRun_bounds w b i).2.1
    omega
  refine ⟨hoffset, by omega, by omega, h4, h19, hbuffer, hwindow, fun j hj => ?_, henc, ?_⟩
  · rw [hstart]
    exact matchRun_agree (hrun ▸ hj)
  · rintro rfl
    exact absurd hoffset (by decide)

/-- Settles O14: the position is `find_eq_some`'s, and the match is its run, agreeing inside and stopped at its end. -/
theorem nearestMatchWins : Obligations.NearestMatchWins := by
  intro w b r h
  obtain ⟨i, hpos, hrun, hm, hlast⟩ := find_eq_some h
  rw [hrun]
  exact ⟨i, hpos, hm, hlast, fun j hj => matchRun_agree hj, (matchRun_bounds w b i).1, matchRun_stop (by omega)⟩

/-- Settles O15: a position that matches needs 4 bytes of the window and of the buffer. -/
theorem noMatchExactly : Obligations.NoMatchExactly := by
  intro w b
  refine ⟨find_eq_none_iff w b, fun hshort => (find_eq_none_iff w b).2 fun i hm => ?_⟩
  have hwindow := matchesAt_lt hm
  have hbuffer := matchesAt_buffer hm
  omega

end Sys2Proof.Machine
end

section
/-! PROOFS. The statements of 42_stream_compressor.md about one step of SCOMP: the accepted start, the literal and the match
step, the pointers it emits, and that each token it appends stands for the bytes it consumes. -/

namespace Sys2Proof.Machine

open Safety

/-! ### The accepted start -/

/-- The buffer an accepted start fills is the head of the input (R126). -/
theorem startedComp_eq (s : State) : startedComp s =
    { w := [], b := s.host.cinBytes.take 29, rd := min 29 s.host.cinLen
      cout := [], coutLen := 0, st := .busy, cause := .none } :=
  congrArg (fun b => Scomp.mk [] b (min 29 s.host.cinLen) [] 0 .busy .none) (cin_slice s.host 0 29)

/-- Settles O18: the start is accepted, and of what it writes only `rd` is not zero. -/
theorem compStartInitialises : Obligations.CompStartInitialises := by
  intro s hr hc hd hcs hrd
  obtain ⟨hpos, hcap⟩ := zero_fits s.params
  have hfit : (startedComp s).Fits s.dropStrobes.params := ⟨hcap, hpos, hrd⟩
  rw [step_compStart hr (by simp [State.busy, hc, hd]) hcs]
  refine (commitComp_next hfit).trans ?_
  rw [startedComp_eq]
  rfl

/-! ### The termination tests alone, and the empty input -/

/-- With an empty buffer an advance of SCOMP is its termination test (R134). -/
theorem compAdvance_empty {s : State} (hb : s.comp.b = []) : compAdvance s = .next s.settleComp :=
  if_neg (by simp [State.compMore, hb])

/-- At the end of the stream an advance of SDECOMP is its termination test (R160). -/
theorem decompAdvance_end {s : State} (hc : s.host.dinLen ≤ s.decomp.cur) : decompAdvance s = .next s.settleDecomp :=
  if_neg (by simpa [State.decompMore] using hc)

/-- Settles O30: the start leaves an engine that has nothing to do, and the next boundary makes its termination test. -/
theorem emptyInputIsDone : Obligations.EmptyInputIsDone := by
  intro s hr hc hd
  refine ⟨fun hcs hlen => ?_, fun hcs hds hlen => ?_⟩
  · have hfits : s.params.posFits (min 29 s.host.cinLen) = true := by
      rw [hlen]
      exact (zero_fits s.params).1
    have hin : s.host.cinBytes.take 29 = [] := by
      rw [List.eq_nil_of_length_eq_zero (s.host.cinBytes_length.trans hlen), List.take_nil]
    have hstart := compStartInitialises s hr hc hd hcs hfits
    rw [hin, hlen] at hstart
    refine ⟨_, hstart, _, (step_comp ?_).trans (compAdvance_empty ?_), rfl⟩
    · exact ⟨hr, rfl⟩
    · rfl
  · refine ⟨_, decompStartInitialises s hr hc hd hcs hds, _, ?_, rfl⟩
    refine (step_decomp ?_).trans ((decompAdvance_end ?_).trans (congrArg _ ((State.settleDecomp_busy _ ?_).2 ?_)))
    · exact ⟨hr, hc, rfl⟩
    · exact hlen.le
    · rfl
    · exact hlen.not_gt

/-! ### The literal step and the match step -/

/-- Without a match a token of SCOMP is the literal step (R128, R129). -/
theorem compToken_literal {s : State} (hf : find s.comp.w s.comp.b = none) :
    compToken s = s.commitComp (s.comp.literalStep s.host) := by
  simp only [compToken, hf]

/-- With a match that ENCODE writes as `tr` it is the match step (R128, R132). -/
theorem compToken_match {s : State} {r : BackRef} {tr : Triple} (hf : find s.comp.w s.comp.b = some r)
    (he : pcodecEncode r = .ok tr) :
    compToken s = s.commitComp (((s.comp.append tr.toList).moveFront r.length).refill s.host r.length) := by
  simp only [compToken, hf, Scomp.matchStep, he]

/-- An advance whose token's state `c` fits the bounds writes it back and makes the termination test. -/
theorem compAdvance_commit {s : State} {c : Scomp} (hb : s.comp.b ≠ []) (htoken : compToken s = s.commitComp c)
    (hfit : c.Fits s.params) : compAdvance s = .next (State.settleComp { s with comp := c }) := by
  unfold compAdvance
  rw [if_pos (by simpa [State.compMore] using hb), htoken, commitComp_next hfit]
  rfl

/-- The termination test of a BUSY SCOMP: DONE with an empty buffer, BUSY otherwise (R134). -/
theorem settleComp_status {s : State} (hb : s.comp.st = .busy) :
    (s.settleComp.comp.b = [] ∧ s.settleComp.comp.st = .done) ∨
    (s.settleComp.comp.b ≠ [] ∧ s.settleComp.comp.st = .busy) := by
  obtain ⟨hmore, hend⟩ := State.settleComp_busy s hb
  by_cases hempty : s.comp.b = []
  · rw [hend hempty]
    exact .inl ⟨hempty, rfl⟩
  · rw [hmore hempty]
    exact .inr ⟨hempty, hb⟩

/-- Bytes written behind an output leave every other position as it was (R52). -/
theorem Memory.read_writeBytes_outside (m : Memory) (n : Nat) (bs : List Byte) {a : Nat} (h : a < n ∨ n + bs.length ≤ a) :
    Memory.read (Memory.writeBytes m n bs) a = Memory.read m a := by
  rw [Memory.read_writeBytes, if_neg (by omega)]

/-- Settles O19: the literal step's state, written back and tested for termination. -/
theorem literalStepEffect : Obligations.LiteralStepEffect := by
  intro s v rest out hturn hb hf hout hroom
  obtain rfl : out = literalOut v := hout
  have hadv := compAdvance_commit (s := s.dropStrobes) (by simp [hb]) (compToken_literal hf)
  rw [← step_comp hturn, State.dropStrobes_comp, literalStep_eq _ hb] at hadv
  refine ⟨_, hadv hroom, State.settleComp_w _, State.settleComp_b _, State.settleComp_rd _, State.settleComp_coutLen _,
    ?_, fun a ha => ?_, settleComp_status hturn.2, State.settleComp_cause _, State.settleComp_decomp _,
    State.settleComp_params _, State.settleComp_host _⟩
  · rw [State.settleComp_coutBytes]
    exact s.comp.append_coutBytes (literalOut v)
  · rw [State.settleComp_cout]
    exact Memory.read_writeBytes_outside _ _ _ ha

/-- Settles O20: the match step's state, written back and tested for termination. -/
theorem matchStepEffect : Obligations.MatchStepEffect := by
  intro s r hturn hw hf hroom
  obtain ⟨_, hoff, hwin, h4, h19, hlen, _⟩ := findResultRanges _ _ r hw hf
  have hb : s.comp.b ≠ [] := List.ne_nil_of_length_pos (by omega)
  have hadv := compAdvance_commit (s := s.dropStrobes) hb (compToken_match hf (pcodecEncode_ok (by omega) ⟨h4, h19⟩))
  rw [← step_comp hturn, State.dropStrobes_comp, matchMove_eq _ _ _ _ hlen hw] at hadv
  refine ⟨_, hadv hroom, State.settleComp_w _, State.settleComp_b _, State.settleComp_rd _, State.settleComp_coutLen _,
    ⟨_, _, ?_, fieldBytes_toNat (by omega)⟩, fun a ha => ?_, settleComp_status hturn.2, State.settleComp_cause _,
    State.settleComp_decomp _, State.settleComp_params _, State.settleComp_host _⟩
  · rw [State.settleComp_coutBytes]
    exact s.comp.append_coutBytes _
  · rw [State.settleComp_cout]
    exact Memory.read_writeBytes_outside _ _ _ ha

/-- The termination test puts no engine into FAULT (R134). -/
theorem settleComp_not_fault {s : State} (h : s.comp.st ≠ .fault) : s.settleComp.comp.st ≠ .fault := by
  by_cases hb : s.comp.st = .busy
  · rcases settleComp_status hb with ⟨_, hst⟩ | ⟨_, hst⟩ <;> rw [hst] <;> decide
  · rwa [State.settleComp_stopped s hb]

/-- Settles O21: an advance leaves the cause, and the status but for the termination test; every other step leaves SCOMP,
starts it or resets it. -/
theorem compressorNeverFaults : Obligations.CompressorNeverFaults := by
  intro s t hw hst hcause h
  rcases step_cases h with ⟨_, rfl⟩ | ⟨_, _, ha⟩ | ⟨_, _, _, ha⟩ | ⟨_, _, _, _, _, rfl⟩ | ⟨_, _, _, _, _, _, rfl⟩ |
    ⟨_, _, _, _, _, rfl⟩
  · exact ⟨nofun, rfl⟩
  · rcases compAdvance_consume (s := s.dropStrobes) hw ha with rfl | ⟨n, bs, _, _, _, _, rfl⟩
    · exact ⟨settleComp_not_fault hst, (State.settleComp_cause _).trans hcause⟩
    · exact ⟨settleComp_not_fault (s := { s.dropStrobes with comp := _ }) hst, (State.settleComp_cause _).trans hcause⟩
  · rw [(decompAdvance_frame ha).2.2]
    exact ⟨hst, hcause⟩
  · exact ⟨nofun, rfl⟩
  · exact ⟨hst, hcause⟩
  · exact ⟨hst, hcause⟩

/-! ### The pointers SCOMP emits -/

/-- A window that follows the input holds its last consumed bytes (R28). -/
theorem follows_window_getElem? {h : HostSide} {c : Scomp} (hF : Follows h c) {k : Nat} (hk : k < c.w.length) :
    c.w[k]? = h.cinBytes[c.consumed - c.w.length + k]? := by
  obtain ⟨hw, _, hin, _⟩ := follows_lengths hF
  have hget := congrArg (·[k]?) hF.window
  simp only [newest_eq_drop, List.getElem?_drop, List.length_take, HostSide.cinBytes_length, Config.wsize_eq] at hget
  rw [hget, List.getElem?_take_of_lt (by omega)]
  exact congrArg (h.cinBytes[·]?) (by omega)

/-- A buffer that follows the input holds the bytes after those (R29). -/
theorem follows_buffer_getElem? {h : HostSide} {c : Scomp} (hF : Follows h c) {k : Nat} (hk : k < c.b.length) :
    c.b[k]? = h.cinBytes[c.consumed + k]? := by
  have hb := (follows_lengths hF).2.1
  rw [hF.buffer, Config.bsize_eq, List.getElem?_take_of_lt (by omega), List.getElem?_drop]

/-- The window of a compress is within its capacity (R26). -/
theorem follows_capacity {h : HostSide} {c : Scomp} (hF : Follows h c) : c.w.length ≤ 4096 := by
  rw [(follows_lengths hF).1]
  exact Nat.min_le_right _ _

/-- Settles O23: the match lies in the window and in the buffer, and both are slices of the input. -/
theorem emittedPointersInHistory : Obligations.EmittedPointersInHistory := by
  intro s r hF hf
  obtain ⟨hw, hb, hin, _⟩ := follows_lengths hF
  obtain ⟨h3, hoff, _, h4, h19, hlen, hslice, hagree, _⟩ := findResultRanges _ _ r (follows_capacity hF) hf
  refine ⟨h3, by omega, h4, h19, hslice, by omega, by omega, fun x hx => ?_⟩
  obtain ⟨v, hwin, hbuf⟩ := hagree x hx
  rw [← follows_buffer_getElem? hF (by omega), hbuf, ← hwin, follows_window_getElem? hF (by omega)]
  congr 1
  omega

/-! ### What each token stands for -/

/-- The token a literal step emits for a byte (R130, R131). -/
def literalToken (v : Byte) : Instr := if v = 0xCC then .esclit else .lit v

/-- Its bytes are what the literal step appends, and it is a token of the format that stands for the byte. -/
theorem literalToken_spec (v : Byte) :
    encode (literalToken v) = literalOut v ∧ (literalToken v).wf = true ∧
      ∀ policy out, tokenOut policy out (literalToken v) = .ok (out ++ [v]) := by
  unfold literalToken literalOut
  by_cases hv : v = 0xCC
  · subst hv
    exact ⟨rfl, rfl, fun _ _ => rfl⟩
  · rw [if_neg hv, if_neg hv]
    exact ⟨rfl, (Instr.wf_lit_iff v).2 hv, fun _ _ => rfl⟩

/-- The token a match step emits is a PTR of the match's operands, and one of the format (R72, R90, R118). -/
theorem exists_ptr_token {r : BackRef} {tr : Triple} (h3 : 3 ≤ r.offset) (he : pcodecEncode r = .ok tr) :
    ∃ o l, r = { offset := ptrOffset o, length := ptrLength l } ∧ tr.toList = encode (.ptr o l) ∧
      (Instr.ptr o l).wf = true := by
  rcases pcodecEncode_cases r with ⟨ho, h4, h19, _⟩ | ⟨_, herr⟩
  · obtain ⟨o, l, rfl⟩ := exists_ptr_operands ho h4 h19
    obtain ⟨t, henc, hbytes, _⟩ := tokenIsCodecPair o l
    obtain rfl : t = tr := Except.ok.inj (henc.symm.trans he)
    refine ⟨o, l, rfl, hbytes, (Instr.wf_ptr_iff o l).2 ?_⟩
    rintro ⟨rfl, _⟩
    exact absurd h3 (show ¬ 3 ≤ 0 by decide)
  · cases herr.symm.trans he

/-- A PTR that stays behind the output, over the head of `bytes` whose next bytes repeat the copied ones, gives the longer head
(R137, R156). -/
theorem tokenOut_ptr_take (policy : Config.OverlapPolicy) {bytes : List Byte} {p : Nat} {o : BitVec 12} {l : BitVec 4}
    (hback : o.toNat + 1 ≤ p) (hslice : l.toNat + 4 ≤ o.toNat + 1) (hin : p + (l.toNat + 4) ≤ bytes.length)
    (heq : ∀ x, x < l.toNat + 4 → bytes[p + x]? = bytes[p - o.toNat - 1 + x]?) :
    tokenOut policy (bytes.take p) (.ptr o l) = .ok (bytes.take (p + (l.toNat + 4))) := by
  have hlen : (bytes.take p).length = p := List.length_take_of_le (by omega)
  have hcopy : ((bytes.take p).drop (p - o.toNat - 1)).take (l.toNat + 4) = (bytes.drop p).take (l.toNat + 4) := by
    apply List.ext_getElem?
    intro x
    by_cases hx : x < l.toNat + 4
    · rw [List.getElem?_take_of_lt hx, List.getElem?_take_of_lt hx, List.getElem?_drop, List.getElem?_drop,
        List.getElem?_take_of_lt (by omega), heq x hx]
    · rw [List.getElem?_eq_none (by simp; omega), List.getElem?_eq_none (by simp; omega)]
  simp only [tokenOut, hlen]
  rw [if_neg (by omega), if_neg (by omega), copyOut_slice _ _ _ (by omega), hcopy, ← List.take_add]

/-- An advance of SCOMP over stores that follow the input consumes 1 to 19 bytes and appends one token, which stands for exactly
those bytes; with an empty buffer it makes the termination test only (R136, R137). -/
theorem compAdvance_token {s t : State} (hF : Follows s.host s.comp) (h : compAdvance s = .next t) :
    (s.comp.b = [] ∧ t = s.settleComp) ∨
    ∃ n i, (1 ≤ n ∧ n ≤ 19 ∧ n ≤ s.comp.b.length) ∧ i.wf = true ∧
      (∀ policy, tokenOut policy (s.host.cinBytes.take s.comp.consumed) i =
        .ok (s.host.cinBytes.take (s.comp.consumed + n))) ∧
      t = State.settleComp { s with comp := s.comp.consume s.host n (encode i) } := by
  have hw := follows_capacity hF
  rcases compAdvance_spec hw h with ⟨hb, rfl⟩ | ⟨v, rest, hb, _, rfl, _⟩ | ⟨r, tr, hf, hr, he, rfl, _⟩
  · exact .inl ⟨hb, rfl⟩
  · obtain ⟨hbytes, hwf, hout⟩ := literalToken_spec v
    have hv : s.host.cinBytes[s.comp.consumed]? = some v := by
      have hfront := follows_buffer_getElem? hF (k := 0) (by simp [hb])
      rw [hb] at hfront
      exact hfront.symm
    refine .inr ⟨1, literalToken v, ⟨le_rfl, by omega, by simp [hb]⟩, hwf, fun policy => ?_, ?_⟩
    · rw [hout, List.take_add_one, hv]
      rfl
    · rw [literalStep_eq_consume s.host hb hw, hbytes]
  · obtain ⟨h3, _, h4, h19, hslice, hback, hin, heq⟩ := emittedPointersInHistory s r hF hf
    obtain ⟨o, l, rfl, hbytes, hwf⟩ := exists_ptr_token h3 he
    refine .inr ⟨l.toNat + 4, .ptr o l, ⟨by omega, h19, hr⟩, hwf, fun policy => ?_, ?_⟩
    · exact tokenOut_ptr_take policy (hback.trans (Nat.min_le_left _ _)) hslice
        (hin.trans_eq s.host.cinBytes_length.symm) heq
    · rw [matchMove_eq s.comp s.host _ _ hr hw, hbytes]
      rfl

end Sys2Proof.Machine
end

section
/-! PROOFS. The statements of 42_stream_compressor.md about a whole compress: its output expands to its input, it ends, and a
decompress gives the input back. -/

namespace Sys2Proof.Machine

open Safety

/-! ### The output expands to the input consumed -/

theorem Scomp.consume_coutBytes (c : Scomp) (h : HostSide) (n : Nat) (bs : List Byte) :
    (c.consume h n bs).coutBytes = c.coutBytes ++ bs :=
  c.append_coutBytes bs

/-- An advance of SCOMP appends a token that stands for the bytes it consumes, so the output goes on expanding to them. -/
theorem expands_compAdvance {policy : Config.OverlapPolicy} {s t : State} (hF : Follows s.host s.comp)
    (hexp : expand policy s.comp.coutBytes = .ok (s.host.cinBytes.take s.comp.consumed)) (h : compAdvance s = .next t) :
    expand policy t.comp.coutBytes = .ok (t.host.cinBytes.take t.comp.consumed) := by
  rw [(compAdvance_frame h).2.1]
  rcases compAdvance_token hF h with ⟨_, rfl⟩ | ⟨n, i, ⟨_, _, hn⟩, hwf, hout, rfl⟩
  · rwa [State.settleComp_coutBytes, State.settleComp_consumed]
  · have hdec : decode (encode i) = .ok (i, []) := by
      have h := decodeOfEncode i [] hwf
      rwa [List.append_nil] at h
    rw [State.settleComp_coutBytes, State.settleComp_consumed, Scomp.consume_coutBytes,
      (Scomp.consume_consumed s.host (encode i) hn hF.buffered).2, expand_snoc policy hexp hdec, hout]

/-- Settles O24: the empty stream expands to nothing at the start, and each advance keeps the statement. -/
theorem outputExpandsToInput : Obligations.OutputExpandsToInput := by
  intro policy s t hr h hprev hb
  rcases step_compress hr h hb with ⟨hc, ha⟩ | ⟨_, rfl⟩
  · obtain ⟨hF, hexp⟩ := hprev hc
    exact expands_compAdvance (s := s.dropStrobes) (follows_strobesOver hF) hexp ha
  · rw [(follows_started s).2, List.take_zero]
    rfl

/-! ### A compress ends -/

/-- How much of its input SCOMP has not consumed. -/
def State.compLeft (s : State) : Nat := s.host.cinLen - s.comp.consumed

theorem State.settleComp_compLeft (s : State) : s.settleComp.compLeft = s.compLeft := by
  rw [State.compLeft, State.settleComp_consumed, State.settleComp_host, State.compLeft]

/-- With stores that follow the input, the buffer is empty exactly when nothing is left. -/
theorem follows_buffer_nil_iff {s : State} (hF : Follows s.host s.comp) : s.comp.b = [] ↔ s.compLeft = 0 := by
  obtain ⟨_, hb, _⟩ := follows_lengths hF
  rw [← List.length_eq_zero_iff, hb, State.compLeft]
  omega

/-- An advance consumes at most 19 bytes, and at least one while one is left (R134). -/
theorem compAdvance_compLeft {s t : State} (hF : Follows s.host s.comp) (h : compAdvance s = .next t) :
    t.compLeft ≤ s.compLeft - 1 ∧ s.compLeft ≤ t.compLeft + 19 := by
  have hin := (follows_lengths hF).2.2.1
  rcases compAdvance_token hF h with ⟨hb, rfl⟩ | ⟨n, i, ⟨h1, h19, hn⟩, _, _, rfl⟩
  · have hleft := (follows_buffer_nil_iff hF).1 hb
    rw [State.settleComp_compLeft]
    omega
  · have hcons := (Scomp.consume_consumed s.host (encode i) hn hF.buffered).2
    rw [State.settleComp_compLeft, State.compLeft, State.compLeft, hcons]
    dsimp only
    omega

/-- After an advance SCOMP is DONE or BUSY, as its buffer is empty or not (R134). -/
theorem compAdvance_status {s t : State} (hF : Follows s.host s.comp) (hb : s.comp.st = .busy)
    (h : compAdvance s = .next t) : (t.comp.b = [] ∧ t.comp.st = .done) ∨ (t.comp.b ≠ [] ∧ t.comp.st = .busy) := by
  rcases compAdvance_token hF h with ⟨_, rfl⟩ | ⟨n, i, _, _, _, rfl⟩
  · exact settleComp_status hb
  · exact settleComp_status hb

/-- A boundary of a compress that has the machine to itself: everything the compress keeps. -/
structure Compressing (s : State) : Prop where
  alone : CompAlone s
  follows : Follows s.host s.comp
  cause : s.comp.cause = .none
  expands : ∀ policy, expand policy s.comp.coutBytes = .ok (s.host.cinBytes.take s.comp.consumed)

/-- An accepted start begins a compress with its whole input left (R126). -/
theorem compressing_started {s : State} (h : Ready s) :
    Compressing { s.dropStrobes with comp := startedComp s } ∧
      State.compLeft { s.dropStrobes with comp := startedComp s } = s.host.cinLen := by
  obtain ⟨hF, hzero⟩ := follows_started s
  refine ⟨⟨compAlone_started h, follows_strobesOver hF, rfl, fun _ => ?_⟩, ?_⟩
  · rw [hzero, List.take_zero]
    rfl
  · rw [State.compLeft, hzero]
    rfl

/-- A BUSY compress makes its next step, and gets closer to DONE. -/
theorem Compressing.step {s : State} (hs : Compressing s) (hb : s.comp.st = .busy) :
    ∃ t, Machine.step s = .next t ∧ Compressing t ∧ t.host.cinBytes = s.host.cinBytes ∧
      (t.compLeft ≤ s.compLeft - 1 ∧ s.compLeft ≤ t.compLeft + 19) ∧
      (t.compLeft = 0 ∧ t.comp.st = .done ∨ t.compLeft ≠ 0 ∧ t.comp.st = .busy) := by
  obtain ⟨halone, hF, hcause, hexp⟩ := hs
  obtain ⟨t, ht⟩ := (stopsOnlyAtBounds s).2.1 halone.outCap halone.lenBits
  obtain ⟨halone', hin⟩ := halone.next ht
  have ha : compAdvance s = .next t := by rwa [halone.step_eq, if_pos hb] at ht
  have hF' := follows_compAdvance hF ha
  have hcause' := (compressorNeverFaults s t (follows_capacity hF) (by rw [hb]; decide) hcause ht).2
  have hst := compAdvance_status hF hb ha
  rw [follows_buffer_nil_iff hF', ne_eq, follows_buffer_nil_iff hF'] at hst
  exact ⟨t, ht, ⟨halone', hF', hcause', fun policy => expands_compAdvance hF (hexp policy) ha⟩, hin,
    compAdvance_compLeft hF ha, hst⟩

/-- `n` steps from `s` end in `t`, and SCOMP is BUSY at each boundary before the last. -/
def CompBusyRun (n : Nat) (s t : State) : Prop :=
  Runs n s t ∧ ∀ m, m < n → ∃ u, Runs m s u ∧ u.comp.st = .busy

/-- One more step in front of such a run. -/
theorem CompBusyRun.cons {n : Nat} {s u t : State} (hb : s.comp.st = .busy) (h : step s = .next u)
    (hrun : CompBusyRun n u t) : CompBusyRun (n + 1) s t := by
  refine ⟨⟨u, h, hrun.1⟩, fun m hm => ?_⟩
  cases m with
  | zero => exact ⟨s, rfl, hb⟩
  | succ m =>
    obtain ⟨v, hv, hvb⟩ := hrun.2 m (by omega)
    exact ⟨v, ⟨u, h, hv⟩, hvb⟩

/-- A BUSY compress reaches DONE with nothing left, each step on the way consuming 1 to 19 bytes (R134). -/
theorem Compressing.ends {s : State} (hs : Compressing s) (hb : s.comp.st = .busy) :
    ∃ n t, CompBusyRun n s t ∧ Compressing t ∧ t.host.cinBytes = s.host.cinBytes ∧ t.comp.st = .done ∧ t.compLeft = 0 ∧
      n ≤ max 1 s.compLeft ∧ s.compLeft ≤ 19 * n := by
  induction hk : s.compLeft using Nat.strong_induction_on generalizing s with
  | _ k ih =>
    obtain ⟨t, ht, hs', hin, ⟨hless, hmost⟩, ⟨hleft, hdone⟩ | ⟨hleft, hbusy⟩⟩ := hs.step hb
    · exact ⟨1, t, CompBusyRun.cons hb ht ⟨rfl, nofun⟩, hs', hin, hdone, hleft, Nat.le_max_left _ _, by omega⟩
    · obtain ⟨n, v, hrun, hv, hvin, hvst, hvleft, hn, hn19⟩ := ih t.compLeft (by omega) hs' hbusy rfl
      exact ⟨n + 1, v, hrun.cons hb ht, hv, hvin.trans hin, hvst, hvleft, by omega, by omega⟩

/-- Settles O26: the accepted start, then the compress to its end. -/
theorem compressTerminates : Obligations.CompressTerminates := by
  intro s hs hc
  obtain ⟨hstarted, hleft⟩ := compressing_started hs
  have hstart := step_compStart_ready hs hc
  obtain ⟨n, t, ⟨hrun, hbusy⟩, ht, _, hdone, _, hn, hn19⟩ := hstarted.ends rfl
  rw [hleft] at hn hn19
  refine ⟨n, t, ⟨_, hstart, hrun⟩, hdone, ht.cause, hn, hn19, fun m hm => ?_⟩
  obtain ⟨u, hu, hub⟩ := hbusy m hm
  exact ⟨u, ⟨_, hstart, hu⟩, hub⟩

/-- Every accepted compress reaches DONE with an output that expands, under either policy, to its whole input. -/
theorem compress_output_expands {s : State} (hs : Ready s) (hc : s.host.compStart = true) :
    ∃ n t, Runs n s t ∧ t.comp.st = .done ∧ ∀ policy, expand policy t.comp.coutBytes = .ok s.host.cinBytes := by
  obtain ⟨n, t, ⟨hrun, _⟩, ht, hin, hdone, hleft, _⟩ := (compressing_started hs).1.ends rfl
  refine ⟨n + 1, t, ⟨_, step_compStart_ready hs hc, hrun⟩, hdone, fun policy => ?_⟩
  have hall : t.host.cinBytes.length ≤ t.comp.consumed := by
    rw [HostSide.cinBytes_length]
    exact Nat.sub_eq_zero_iff_le.1 hleft
  rw [ht.expands policy, List.take_of_length_le hall, hin]
  rfl

/-! ### A decompress computes what its stream expands to -/

/-- What the rest of SDECOMP's stream makes of the output so far (R163). -/
def State.restOut (s : State) : Except Cause (List Byte) :=
  expandFrom s.params.overlap (s.host.dinBytes.drop s.decomp.cur).length (s.host.dinBytes.drop s.decomp.cur)
    s.decomp.doutBytes

/-- At the end of the stream it is the output so far. -/
theorem State.restOut_end {s : State} (h : s.host.dinLen ≤ s.decomp.cur) : s.restOut = .ok s.decomp.doutBytes := by
  rw [State.restOut, List.drop_eq_nil_of_le (by rwa [HostSide.dinBytes_length])]
  rfl

@[simp] theorem State.settleDecomp_restOut (s : State) : s.settleDecomp.restOut = s.restOut := by
  unfold State.settleDecomp
  split <;> rfl

/-- A stream that begins with no token does not expand (R157). -/
theorem expandFrom_error (policy : Config.OverlapPolicy) {bs out : List Byte} {e : DecodeError} (hne : bs ≠ [])
    (h : decode bs = .error e) : expandFrom policy bs.length bs out = .error .truncatedInput := by
  cases bs with
  | nil => exact absurd rfl hne
  | cons b rest => rw [List.length_cons, expandFrom, h]

/-- A decoded token is one token of `restOut`: it goes on to what the rest makes of the longer output, or it is the fault. -/
theorem exec_restOut {s u : State} {i : Instr} {rest : List Byte}
    (hd : decode (s.host.dinBytes.drop s.decomp.cur) = .ok (i, rest)) (h : exec i s = .next u) :
    (u.restOut = s.restOut ∧ u.host = s.host ∧ u.decomp.st = s.decomp.st ∧ u.decomp.cur = s.decomp.cur + i.length) ∨
    (s.restOut = .error .referenceOutOfRange ∧ u = s.raiseDecomp .referenceOutOfRange) := by
  have hrest := (decode_drop hd).1
  rw [List.drop_drop] at hrest
  rcases exec_tokenOut h with ⟨out, hout, hbytes, hcur, hst, _, hhost, hparams, _⟩ | ⟨hout, rfl⟩
  · refine .inl ⟨?_, hhost, hst, hcur⟩
    rw [State.restOut, State.restOut, expandFrom_token _ hd, hout, hbytes, hcur, hhost, hparams, hrest]
  · refine .inr ⟨?_, rfl⟩
    rw [State.restOut, expandFrom_token _ hd, hout]

/-- An advance of SDECOMP within its stream goes on with `restOut` unchanged, or ends in DONE or FAULT as `restOut` says. -/
theorem decompAdvance_restOut {s t : State} (hb : s.decomp.st = .busy) (h : decompAdvance s = .next t) :
    (t.decomp.st = .busy ∧ t.restOut = s.restOut ∧ s.decomp.cur < t.decomp.cur ∧ t.decomp.cur ≤ t.host.dinLen) ∨
    (t.decomp.st = .done ∧ s.restOut = .ok t.decomp.doutBytes) ∨
    (t.decomp.st = .fault ∧ s.restOut = .error t.decomp.cause) := by
  rcases decompAdvance_spec h with ⟨hend, rfl⟩ | ⟨hmore, i, rest, u, hd, he, rfl⟩ | ⟨hmore, ⟨e, hd⟩, rfl⟩
  · rw [(State.settleDecomp_busy s hb).2 (Nat.not_lt.2 hend)]
    exact .inr (.inl ⟨rfl, State.restOut_end hend⟩)
  · rcases exec_restOut hd he with ⟨hrest, hhost, hst, hcur⟩ | ⟨hrest, rfl⟩
    · have hin : u.decomp.cur ≤ u.host.dinLen := by
        rw [hcur, hhost]
        exact decode_within hmore hd
      have hlt : s.decomp.cur < u.settleDecomp.decomp.cur := by
        have hpos := (decode_drop hd).2.2.1
        rw [State.settleDecomp_cur]
        omega
      rw [← State.settleDecomp_restOut] at hrest
      rw [← hrest]
      rcases settleDecomp_position (hst.trans hb) hin with ⟨hdone, hat⟩ | ⟨hbusy, hbefore⟩
      · exact .inr (.inl ⟨hdone, State.restOut_end hat.ge⟩)
      · exact .inl ⟨hbusy, rfl, hlt, hbefore.le⟩
    · rw [State.settleDecomp_stopped _ (by simp)]
      exact .inr (.inr ⟨rfl, hrest⟩)
  · refine .inr (.inr ⟨rfl, expandFrom_error _ (List.ne_nil_of_length_pos ?_) hd⟩)
    rw [List.length_drop, HostSide.dinBytes_length]
    omega

/-- SDECOMP is BUSY, and neither a bound, nor reset, nor SCOMP is in its way. -/
structure Decompressing (s : State) : Prop where
  lenBits : s.params.lenBits = none
  outCap : s.params.outCap = none
  rst : s.host.rst = false
  comp : s.comp.st ≠ .busy
  busy : s.decomp.st = .busy

/-- Its next step goes on with the stream, `restOut` unchanged, or ends in DONE or FAULT as `restOut` says. -/
theorem Decompressing.step {s : State} (hs : Decompressing s) :
    ∃ t, Machine.step s = .next t ∧
      ((Decompressing t ∧ t.restOut = s.restOut ∧ t.host.dinLen - t.decomp.cur < s.host.dinLen - s.decomp.cur) ∨
       (t.decomp.st = .done ∧ s.restOut = .ok t.decomp.doutBytes) ∨
       (t.decomp.st = .fault ∧ s.restOut = .error t.decomp.cause)) := by
  obtain ⟨hl, hc, hr, hcomp, hb⟩ := hs
  obtain ⟨t, ht⟩ := (stopsOnlyAtBounds s).2.1 hc hl
  refine ⟨t, ht, ?_⟩
  rw [step_decomp ⟨hr, hcomp, hb⟩] at ht
  refine (decompAdvance_restOut (s := s.dropStrobes) hb ht).imp_left ?_
  rintro ⟨hb', hrest, hcur, hin⟩
  obtain ⟨hparams, hhost, hcomp'⟩ := decompAdvance_frame ht
  rw [hhost] at hin ⊢
  refine ⟨⟨hparams ▸ hl, hparams ▸ hc, hhost ▸ hr, hcomp' ▸ hcomp, hb'⟩, hrest, ?_⟩
  exact Nat.sub_lt_sub_left (hcur.trans_le hin) hcur

/-- A decompress under way ends in DONE with what its stream expands to, or in FAULT with the cause for which it does not. -/
theorem Decompressing.ends {s : State} (hs : Decompressing s) :
    ∃ n t, Runs n s t ∧ ((t.decomp.st = .done ∧ s.restOut = .ok t.decomp.doutBytes) ∨
      (t.decomp.st = .fault ∧ s.restOut = .error t.decomp.cause)) := by
  induction hk : s.host.dinLen - s.decomp.cur using Nat.strong_induction_on generalizing s with
  | _ k ih =>
    obtain ⟨t, ht, ⟨hs', hrest, hless⟩ | hend⟩ := hs.step
    · obtain ⟨n, v, hrun, hv⟩ := ih _ (hk ▸ hless) hs' rfl
      rw [hrest] at hv
      exact ⟨n + 1, v, ⟨t, ht, hrun⟩, hv⟩
    · exact ⟨1, t, ⟨t, ht, rfl⟩, hend⟩

/-- Settles O28: the output of the compress expands to its input, and the decompress computes what its stream expands to. -/
theorem roundTrip : Obligations.RoundTrip := by
  intro s hs hc
  obtain ⟨n, t, hrun, hdone, hexp⟩ := compress_output_expands hs hc
  refine ⟨n, t, hrun, hdone, fun u hu hcs hds hstream => ?_⟩
  have hstart := decompStartInitialises u hu.rst hu.comp hu.decomp hcs hds
  obtain ⟨m, v, hrun', hend⟩ := Decompressing.ends
    (s := { u with host := strobesOver u.host, decomp := startedDecomp })
    ⟨hu.lenBits, hu.outCap, hu.rst, hu.comp, rfl⟩
  have hrest : State.restOut { u with host := strobesOver u.host, decomp := startedDecomp } = .ok s.host.cinBytes := by
    rw [← hexp u.params.overlap, ← hstream]
    rfl
  rw [hrest] at hend
  refine ⟨m + 1, v, ⟨_, hstart, hrun'⟩, ?_⟩
  rcases hend with ⟨hst, hout⟩ | ⟨_, hbad⟩
  · exact ⟨hst, (Except.ok.inj hout).symm⟩
  · cases hbad

end Sys2Proof.Machine
end

section
/-! PROOFS. The statements of 43_stream_decompressor.md: what each token does to the output, how a step comes to its token, and
a whole decompress, which computes what its stream expands to. -/

namespace Sys2Proof.Machine

open Safety

/-! ### The meanings of the tokens -/

/-- Appending one byte and moving `cur` by `n`, with room for both: everything it does (R152, R154). -/
theorem commitDecomp_append_byte {s : State} (v : Byte) (n : Nat)
    (h : Room s.params (s.decomp.doutLen + 1) (s.decomp.cur + n)) :
    ∃ t, s.commitDecomp ((s.decomp.append [v]).advance n) = .next t ∧ t.decomp.doutLen = s.decomp.doutLen + 1 ∧
      t.decomp.cur = s.decomp.cur + n ∧ Memory.read t.decomp.dout s.decomp.doutLen = some v ∧
      (∀ a, a ≠ s.decomp.doutLen → Memory.read t.decomp.dout a = Memory.read s.decomp.dout a) ∧
      t.decomp.st = s.decomp.st ∧ t.decomp.cause = s.decomp.cause ∧
      t.params = s.params ∧ t.host = s.host ∧ t.comp = s.comp := by
  refine ⟨_, commitDecomp_next h, rfl, rfl, ?_, fun a ha => ?_, rfl, rfl, rfl, rfl, rfl⟩
  · exact (Sdecomp.read_append s.decomp v _).trans (if_pos rfl)
  · exact (Sdecomp.read_append s.decomp v a).trans (if_neg ha)

/-- Settles O31: LIT is the append of its byte. -/
theorem litResult : Obligations.LitResult := fun _ v h => commitDecomp_append_byte v 1 h

/-- Settles O32: ESCLIT is the append of the marker. -/
theorem esclitResult : Obligations.EsclitResult := fun _ h => commitDecomp_append_byte 0xCC 3 h

/-- Settles O33: the copied bytes by `copyBack_new`, every other position by `copyBack_read`. -/
theorem ptrResult : Obligations.PtrResult := by
  intro s o l hin hov hroom
  obtain ⟨hlen, hcur, hst, hcause⟩ := copyBack_regs s.decomp (l.toNat + 4) (s.decomp.doutLen - o.toNat - 1)
  refine ⟨_, execPtr_next hin hov hroom, hlen, congrArg (· + 3) hcur, fun k hk => ?_, fun a ha => ?_,
    hst, hcause, rfl, rfl, rfl⟩
  · exact copyBack_new s.decomp _ _ k (by omega) hk
  · exact copyBack_read s.decomp _ _ a ha

/-- What a PTR that copies makes of the output as a sequence (R156). -/
theorem exec_ptr_copyOut {s : State} {o : BitVec 12} {l : BitVec 4} (hin : o.toNat + 1 ≤ s.decomp.doutLen)
    (hov : s.params.overlap = .replicate ∨ l.toNat + 4 ≤ o.toNat + 1)
    (hroom : Room s.params (s.decomp.doutLen + (l.toNat + 4)) (s.decomp.cur + 3)) :
    ∃ t, exec (.ptr o l) s = .next t ∧ t.decomp.doutLen = s.decomp.doutLen + (l.toNat + 4) ∧
      t.decomp.doutBytes = copyOut s.decomp.doutBytes (l.toNat + 4) (s.decomp.doutBytes.length - o.toNat - 1) := by
  rw [Sdecomp.doutBytes_length]
  obtain ⟨hbytes, hlen, _⟩ := copyBack_spec s.decomp (l.toNat + 4) (s.decomp.doutLen - o.toNat - 1) (by omega)
  exact ⟨_, execPtr_next hin hov hroom, hlen, hbytes⟩

/-- Settles O34: the source lies in the output before the copy, so the copy is a slice. -/
theorem ptrWithoutOverlapCopiesSlice : Obligations.PtrWithoutOverlapCopiesSlice := by
  intro s o l hin hle hroom
  obtain ⟨t, ht, _, hbytes⟩ := exec_ptr_copyOut hin (.inr hle) hroom
  rw [copyOut_slice _ _ _ (by rw [Sdecomp.doutBytes_length]; omega), Sdecomp.doutBytes_length] at hbytes
  exact ⟨t, ht, hbytes⟩

/-- The output before a copy is the beginning of the output after it. -/
theorem copyOut_take (out : List Byte) (n src : Nat) : (copyOut out n src).take out.length = out := by
  apply List.ext_getElem?
  intro k
  by_cases hk : k < out.length
  · rw [List.getElem?_take_of_lt hk, copyOut_old _ _ _ _ hk]
  · rw [List.getElem?_eq_none (by rw [List.length_take]; omega), List.getElem?_eq_none (by omega)]

/-- A PTR out of range, or one whose overlap the policy forbids, is fault entry and nothing else (R158, R159). -/
theorem exec_ptr_faults {s : State} {o : BitVec 12} {l : BitVec 4}
    (h : PtrFaults s.params.overlap o l s.decomp.doutLen) :
    exec (.ptr o l) s = .next (s.raiseDecomp .referenceOutOfRange) := by
  show execPtr o l s = _
  unfold execPtr
  by_cases hrange : s.decomp.doutLen < o.toNat + 1
  · rw [if_pos ((ptrOutOfRange_iff _ _).2 hrange)]
  · rw [if_neg (by rwa [ptrOutOfRange_iff]), if_pos]
    rw [Bool.and_eq_true, beq_iff_eq, ptrOverlaps_iff]
    exact h.resolve_left hrange

/-- Settles O35: `copyOut_cyclic` under the default policy, fault entry under the other. -/
theorem ptrOverlapReplicates : Obligations.PtrOverlapReplicates := by
  intro s o l hin hov
  refine ⟨fun hpol hroom => ?_, fun hpol => exec_ptr_faults (.inr ⟨hpol, hov⟩)⟩
  obtain ⟨t, ht, hlen, hbytes⟩ := exec_ptr_copyOut hin (.inl hpol) hroom
  refine ⟨t, ht, hlen, ?_, fun k hk => ?_⟩ <;> rw [hbytes, ← Sdecomp.doutBytes_length]
  · exact copyOut_take _ _ _
  · exact copyOut_cyclic _ _ _ _ (by rwa [Sdecomp.doutBytes_length]) hk

/-- Settles O36: out of range is one of a PTR's two faults, and the default policy leaves no other. -/
theorem ptrOutOfRangeFaults : Obligations.PtrOutOfRangeFaults := by
  intro s o l
  refine ⟨fun hrange => exec_ptr_faults (.inl hrange), fun hin hpol t h => ?_⟩
  rcases exec_ptr_cases h with ⟨_, rfl⟩ | ⟨hrange | ⟨hfault, _⟩, _⟩
  · obtain ⟨_, _, hst, hcause⟩ := copyBack_regs s.decomp (l.toNat + 4) (s.decomp.doutLen - o.toNat - 1)
    exact ⟨hst, hcause⟩
  · exact absurd hrange (Nat.not_lt.2 hin)
  · cases hpol.symm.trans hfault

/-- Settles O37: the cases of `exec`; LIT and ESCLIT write behind the output, the copy by `copyBack_read`. -/
theorem tokenFrame : Obligations.TokenFrame := by
  intro i s t h
  rcases exec_cases h with ⟨v, rfl, rfl, _⟩ | ⟨rfl, rfl, _⟩ | ⟨o, l, rfl, _, _, _, rfl⟩ | ⟨o, l, rfl, rfl, _⟩
  · exact ⟨rfl, rfl, rfl, Nat.le_add_right _ _, fun _ => Memory.read_writeBytes_outside _ _ _, .inl ⟨rfl, rfl, rfl⟩⟩
  · exact ⟨rfl, rfl, rfl, Nat.le_add_right _ _, fun _ => Memory.read_writeBytes_outside _ _ _, .inl ⟨rfl, rfl, rfl⟩⟩
  · obtain ⟨hlen, hcur, hst, hcause⟩ := copyBack_regs s.decomp (l.toNat + 4) (s.decomp.doutLen - o.toNat - 1)
    refine ⟨rfl, rfl, rfl, (Nat.le_add_right _ _).trans hlen.ge, fun a ha => ?_,
      .inl ⟨hst, hcause, congrArg (· + 3) hcur⟩⟩
    exact copyBack_read _ _ _ a (ha.imp_right hlen.ge.trans)
  · exact ⟨rfl, rfl, rfl, le_rfl, fun _ _ => rfl, .inr ⟨rfl, rfl, rfl, rfl, rfl⟩⟩

/-! ### From a step to its token -/

/-- Before the end of the stream a step of SDECOMP is a token and the termination test (R151, R160). -/
theorem step_decompToken {s : State} (hturn : SdecompTurn s) (hc : s.decomp.cur < s.host.dinLen) :
    step s = mapNext State.settleDecomp (decompToken s.dropStrobes) :=
  (step_decomp hturn).trans (if_pos (decide_eq_true hc))

/-- Settles O38: a token stands at `cur`, so the step is its execution. -/
theorem stepRunsDecodedToken : Obligations.StepRunsDecodedToken := by
  intro s i rest hturn hd
  have hc : s.decomp.cur < s.host.dinLen := by
    obtain ⟨_, hlen, hpos, _⟩ := decode_drop hd
    rw [List.length_drop, HostSide.dinBytes_length] at hlen
    omega
  rw [step_decompToken hturn hc, decompToken_decoded (s := s.dropStrobes) hd]
  rfl

/-- Where no token stands at `cur` the step's token is fault entry (R157). -/
theorem decompToken_error {s : State} {e : DecodeError} (h : decode (s.host.dinBytes.drop s.decomp.cur) = .error e) :
    decompToken s = .next (s.raiseDecomp .truncatedInput) := by
  unfold decompToken
  rw [fetchBytes_eq]
  rcases decode_take3 (s.host.dinBytes.drop s.decomp.cur) with ⟨_, _, hd, _⟩ | ⟨_, _, hd⟩
  · cases h.symm.trans hd
  · rw [hd]

/-- The marker with fewer than two bytes behind it is no token (R75, R157). -/
theorem decode_truncated {bs : List Byte} (h : bs[0]? = some 0xCC) (hlen : bs.length < 3) :
    decode bs = .error .truncatedInput := by
  rcases decode_head_cases bs 0xCC h with ⟨hne, _⟩ | ⟨_, _, hd⟩ | ⟨_, h3, _⟩ | ⟨_, h3, _⟩
  · exact absurd rfl hne
  · exact hd
  · exact absurd hlen (Nat.not_lt.2 h3)
  · exact absurd hlen (Nat.not_lt.2 h3)

/-- Settles O39: the cut marker is no token, and FAULT is left alone by the termination test. -/
theorem truncatedMarkerFaults : Obligations.TruncatedMarkerFaults := by
  intro s hturn hbyte hleft
  obtain ⟨hc, _⟩ := List.getElem?_eq_some_iff.1 hbyte
  rw [HostSide.dinBytes_length] at hc
  have hd : decode (s.host.dinBytes.drop s.decomp.cur) = .error .truncatedInput := by
    refine decode_truncated ?_ ?_
    · rwa [List.getElem?_drop]
    · rwa [List.length_drop, HostSide.dinBytes_length]
  rw [step_decompToken hturn hc, decompToken_error (s := s.dropStrobes) hd]
  exact congrArg _ (State.settleDecomp_stopped _ (by simp))

/-! ### The output's growth -/

/-- A token appends one byte for one of the stream, or at most 19 for three; a fault appends none (R164). -/
theorem exec_growth {i : Instr} {s t : State} (h : exec i s = .next t) :
    (t.decomp.cur = s.decomp.cur + 1 ∧ t.decomp.doutLen = s.decomp.doutLen + 1) ∨
    (t.decomp.cur = s.decomp.cur + 3 ∧ t.decomp.doutLen ≤ s.decomp.doutLen + 19) ∨
    (t.decomp.cur = s.decomp.cur ∧ t.decomp.doutLen = s.decomp.doutLen) := by
  rcases exec_cases h with ⟨v, rfl, rfl, _⟩ | ⟨rfl, rfl, _⟩ | ⟨o, l, rfl, _, _, _, rfl⟩ | ⟨o, l, rfl, rfl, _⟩
  · exact .inl ⟨rfl, rfl⟩
  · exact .inr (.inl ⟨rfl, Nat.add_le_add_left (by decide) _⟩)
  · obtain ⟨hlen, hcur, _⟩ := copyBack_regs s.decomp (l.toNat + 4) (s.decomp.doutLen - o.toNat - 1)
    refine .inr (.inl ⟨congrArg (· + 3) hcur, ?_⟩)
    rw [Sdecomp.advance_doutLen, hlen]
    exact Nat.add_le_add_left (ptrLength_bounds l).2 _
  · exact .inr (.inr ⟨rfl, rfl⟩)

/-- Settles O44: a token's growth keeps the bound, and the rest of a step appends nothing. -/
theorem outputGrowthBound : Obligations.OutputGrowthBound := by
  intro s t hturn hbound h
  rw [step_decomp hturn] at h
  rcases decompAdvance_spec h with ⟨_, rfl⟩ | ⟨_, i, rest, u, _, he, rfl⟩ | ⟨_, _, rfl⟩
  · rwa [State.settleDecomp_doutLen, State.settleDecomp_cur]
  · rw [State.settleDecomp_doutLen, State.settleDecomp_cur]
    have hgrowth := exec_growth he
    rw [State.dropStrobes_decomp] at hgrowth
    omega
  · exact hbound

/-! ### A decompress to its end -/

/-- `n` steps from `s` end in `t`, and `P` holds at each boundary before the last. -/
def RunsWhile (P : State → Prop) (n : Nat) (s t : State) : Prop :=
  Runs n s t ∧ ∀ m, m < n → ∃ u, Runs m s u ∧ P u

/-- A single step is such a run. -/
theorem RunsWhile.single {P : State → Prop} {s t : State} (hs : P s) (h : step s = .next t) : RunsWhile P 1 s t := by
  refine ⟨⟨t, h, rfl⟩, fun m hm => ?_⟩
  obtain rfl := Nat.lt_one_iff.1 hm
  exact ⟨s, rfl, hs⟩

/-- One more step in front of such a run. -/
theorem RunsWhile.cons {P : State → Prop} {n : Nat} {s u t : State} (hs : P s) (h : step s = .next u)
    (hrun : RunsWhile P n u t) : RunsWhile P (n + 1) s t := by
  refine ⟨⟨u, h, hrun.1⟩, fun m hm => ?_⟩
  cases m with
  | zero => exact ⟨s, rfl, hs⟩
  | succ m =>
    obtain ⟨v, hv, hP⟩ := hrun.2 m (Nat.lt_of_succ_lt_succ hm)
    exact ⟨v, ⟨u, h, hv⟩, hP⟩

/-- An advance of SDECOMP that does not end in FAULT leaves the cause and moves `cur` by at most three bytes (R76, R160). -/
theorem decompAdvance_unfaulted {s t : State} (h : decompAdvance s = .next t) (hst : t.decomp.st ≠ .fault) :
    t.decomp.cause = s.decomp.cause ∧ t.decomp.cur ≤ s.decomp.cur + 3 := by
  rcases decompAdvance_spec h with ⟨_, rfl⟩ | ⟨_, i, rest, u, hd, he, rfl⟩ | ⟨_, _, rfl⟩
  · simp
  · rcases exec_position he with ⟨hcur, _, hcause, _⟩ | rfl
    · obtain ⟨_, _, _, hlen⟩ := decode_drop hd
      rw [State.settleDecomp_cause, State.settleDecomp_cur, hcause, hcur]
      exact ⟨rfl, Nat.add_le_add_left hlen _⟩
    · rw [State.settleDecomp_stopped _ (by simp)] at hst
      exact absurd rfl hst
  · exact absurd rfl hst

/-- A step of SDECOMP within its stream ends before the stream's end while BUSY, and at it in DONE (R160). -/
theorem step_decomp_position {s t : State} (hturn : SdecompTurn s) (hin : s.decomp.cur ≤ s.host.dinLen)
    (h : step s = .next t) :
    (t.decomp.st = .busy → t.decomp.cur < t.host.dinLen) ∧ (t.decomp.st = .done → t.decomp.cur = t.host.dinLen) := by
  rcases (decompStopsAtEnd s t hturn hin h).2 with ⟨hst, hc⟩ | ⟨hst, hc⟩ | ⟨hst, _⟩ <;> rw [hst]
  · exact ⟨nofun, fun _ => hc⟩
  · exact ⟨fun _ => hc, nofun⟩
  · exact ⟨nofun, nofun⟩

/-- How the rest of a decompress from `s` ends in `t`: in DONE at the end of the stream, with what it expands to, or in FAULT with
the cause for which it does not expand (R150, R163). -/
def DecompEnd (n : Nat) (s t : State) : Prop :=
  (t.decomp.st = .done ∧ s.restOut = .ok t.decomp.doutBytes ∧ t.decomp.cause = s.decomp.cause ∧
    t.decomp.cur = s.host.dinLen ∧ s.host.dinLen - s.decomp.cur ≤ 3 * n) ∨
  (t.decomp.st = .fault ∧ s.restOut = .error t.decomp.cause)

/-- One more step in front of such an end. -/
theorem DecompEnd.cons {n : Nat} {s u t : State} (hend : DecompEnd n u t) (hrest : u.restOut = s.restOut)
    (hcause : u.decomp.cause = s.decomp.cause) (hlen : u.host.dinLen = s.host.dinLen)
    (hcur : u.decomp.cur ≤ s.decomp.cur + 3) : DecompEnd (n + 1) s t := by
  unfold DecompEnd at hend ⊢
  rw [hrest, hcause, hlen] at hend
  exact hend.imp_left fun ⟨hst, hout, hc, hat, hn⟩ => ⟨hst, hout, hc, hat, by omega⟩

/-- A decompress within its stream ends, each step on the way taking one to three bytes of what is left (R160, R163). -/
theorem Decompressing.ends_within {s : State} (hs : Decompressing s) (hin : s.decomp.cur ≤ s.host.dinLen) :
    ∃ n t, RunsWhile Decompressing n s t ∧ n ≤ max 1 (s.host.dinLen - s.decomp.cur) ∧ DecompEnd n s t := by
  induction hk : s.host.dinLen - s.decomp.cur using Nat.strong_induction_on generalizing s with
  | _ k ih =>
    obtain ⟨t, ht, hnext⟩ := hs.step
    have hturn : SdecompTurn s := ⟨hs.rst, hs.comp, hs.busy⟩
    have hlen : t.host.dinLen = s.host.dinLen := by
      rw [(hostSideUntouched s t ht).2]
      rfl
    obtain ⟨hbusy, hdone⟩ := step_decomp_position hturn hin ht
    have hadv : t.decomp.st ≠ .fault → t.decomp.cause = s.decomp.cause ∧ t.decomp.cur ≤ s.decomp.cur + 3 :=
      decompAdvance_unfaulted (s := s.dropStrobes) ((step_decomp hturn).symm.trans ht)
    rcases hnext with ⟨hs', hrest, hless⟩ | ⟨hst, hout⟩ | hfault
    · obtain ⟨hcause, hcur⟩ := hadv (by rw [hs'.busy]; decide)
      have hbefore := hbusy hs'.busy
      obtain ⟨n, v, hrun, hn, hend⟩ := ih _ (hk ▸ hless) hs' hbefore.le rfl
      exact ⟨n + 1, v, hrun.cons hs ht, by omega, hend.cons hrest hcause hlen hcur⟩
    · obtain ⟨hcause, hcur⟩ := hadv (by rw [hst]; decide)
      have hat := (hdone hst).trans hlen
      exact ⟨1, t, .single hs ht, le_max_left _ _, .inl ⟨hst, hout, hcause, hat, by omega⟩⟩
    · exact ⟨1, t, .single hs ht, le_max_left _ _, .inr hfault⟩

/-- What an accepted `decomp_start` makes of the machine (R41, R150). -/
def State.decompStarted (s : State) : State := { s with host := strobesOver s.host, decomp := startedDecomp }

@[simp] theorem State.decompStarted_restOut (s : State) :
    s.decompStarted.restOut = expand s.params.overlap s.host.dinBytes := rfl

/-- A ready machine accepts `decomp_start`, and the decompress begins (R41, R150). -/
theorem decompressing_started {s : State} (h : Ready s) (hc : s.host.compStart = false) (hd : s.host.decompStart = true) :
    step s = .next s.decompStarted ∧ Decompressing s.decompStarted :=
  ⟨decompStartInitialises s h.rst h.comp h.decomp hc hd, h.lenBits, h.outCap, h.rst, h.comp, rfl⟩

/-- Settles O41: the accepted start, then the decompress to its end. -/
theorem decompressTerminates : Obligations.DecompressTerminates := by
  intro s hs hc hd
  obtain ⟨hstart, hrunning⟩ := decompressing_started hs hc hd
  obtain ⟨n, t, ⟨hrun, hbusy⟩, hn, hend⟩ := hrunning.ends_within (Nat.zero_le _)
  refine ⟨n, t, ⟨_, hstart, hrun⟩, hn, ?_, fun m hm => ?_⟩
  · exact hend.imp (fun ⟨hst, _, _, _, h3⟩ => ⟨hst, h3⟩) And.left
  · obtain ⟨u, hu, hdecomp⟩ := hbusy m hm
    exact ⟨u, ⟨_, hstart, hu⟩, hdecomp.busy⟩

/-- Settles O42: what is left to expand after the start is the whole stream. -/
theorem decompressComputesExpand : Obligations.DecompressComputesExpand := by
  intro s hs hc hd
  obtain ⟨hstart, hrunning⟩ := decompressing_started hs hc hd
  obtain ⟨n, t, ⟨hrun, _⟩, _, hend⟩ := hrunning.ends_within (Nat.zero_le _)
  rw [DecompEnd, State.decompStarted_restOut] at hend
  refine ⟨n + 1, t, ⟨_, hstart, hrun⟩, ?_⟩
  rcases hend with ⟨hst, hout, hcause, hat, _⟩ | ⟨hst, hbad⟩
  · rw [hout]
    refine ⟨fun out h => ⟨hst, Except.ok.inj h, hcause, hat⟩, nofun⟩
  · rw [hbad]
    exact ⟨nofun, fun c h => ⟨hst, Except.error.inj h⟩⟩

/-- Without the marker every byte is a LIT, so a stream expands to itself (R153). -/
theorem expandFrom_no_marker (policy : Config.OverlapPolicy) {bs : List Byte} (h : (0xCC : Byte) ∉ bs) (out : List Byte) :
    expandFrom policy bs.length bs out = .ok (out ++ bs) := by
  induction bs generalizing out with
  | nil => rw [List.append_nil]; rfl
  | cons b rest ih =>
    rw [List.mem_cons, not_or] at h
    obtain ⟨hb, hrest⟩ := h
    rw [expandFrom_token policy (decode_lit (Ne.symm hb) rest), List.append_cons]
    exact ih hrest (out ++ [b])

/-- Settles O43: the decompress computes the expansion, which is the stream itself. -/
theorem noMarkerCopiedUnchanged : Obligations.NoMarkerCopiedUnchanged := by
  intro s hs hc hd hmark
  obtain ⟨n, t, hrun, hok, _⟩ := decompressComputesExpand s hs hc hd
  obtain ⟨hst, hout, _⟩ := hok _ (expandFrom_no_marker s.params.overlap hmark [])
  exact ⟨n, t, hrun, hst, hout⟩

end Sys2Proof.Machine
end

section
/-! PROOFS. The statements of 70_reset_and_hazards.md: reset and a start while an engine is BUSY, the host moves that are
refused, and the invariant under those that are not. -/

namespace Sys2Proof.Machine

open Safety

/-! ### Reset, and a start that is ignored -/

/-- Settles O48: reset goes before all, and what `applyReset` leaves is the table's values. -/
theorem resetFromAnyState : Obligations.ResetFromAnyState := fun _ hr => step_reset hr

/-- With an engine BUSY and no reset, the engine moves, whatever start is asserted (R40). -/
theorem step_busy {s : State} (hr : s.host.rst = false) (hb : s.busy = true) : step s = engineAdvance s.dropStrobes := by
  simp [step, stepBoundary, hr, hb]

/-- Settles O49: reset and the BUSY engine's move both begin by dropping the strobes. -/
theorem startIgnoredWhileBusy : Obligations.StartIgnoredWhileBusy := by
  intro s hb
  show step s = step s.dropStrobes
  cases hr : s.host.rst with
  | true =>
    rw [step_reset hr, step_reset (s := s.dropStrobes) hr]
    rfl
  | false =>
    rw [step_busy hr hb, step_busy (s := s.dropStrobes) hr hb]
    rfl

/-! ### The moves that are refused -/

/-- Settles O55: each move is a change of its engine's input or a drive of the ports, which looks at BUSY first. -/
theorem forbiddenMovesRefused : Obligations.ForbiddenMovesRefused := by
  intro s
  refine ⟨fun hb a v n => ⟨?_, ?_⟩, fun hb a v n => ⟨?_, ?_⟩, fun hb o l d n => ⟨?_, ?_⟩⟩ <;> exact if_pos hb

/-! ### The invariant under the moves that are not -/

/-- The input's length bounds SCOMP's positions only while it is BUSY. -/
theorem Scomp.Ok.of_input {p : Config.Params} {n n' : Nat} {c : Scomp} (ok : c.Ok p n) (h : c.st = .busy → n' = n) :
    c.Ok p n' :=
  { ok with rd := fun hb => h hb ▸ ok.rd hb }

/-- The stream's length bounds `cur` only while SDECOMP is BUSY. -/
theorem Sdecomp.Ok.of_input {p : Config.Params} {n n' : Nat} {d : Sdecomp} (ok : d.Ok p n) (h : d.st = .busy → n' = n) :
    d.Ok p n' :=
  { ok with cur := fun hb => h hb ▸ ok.cur hb }

/-- The invariant holds with any good host's side that keeps the length a BUSY engine works on (R207). -/
theorem inv_withHost {s : State} {h : HostSide} (hinv : Inv s) (hok : h.Ok s.params)
    (hc : s.comp.st = .busy → h.cinLen = s.host.cinLen) (hd : s.decomp.st = .busy → h.dinLen = s.host.dinLen) :
    Inv { s with host := h } := by
  obtain ⟨_, compOk, decompOk, hone⟩ := (inv_iff s).1 hinv
  exact (inv_iff _).2 ⟨hok, compOk.of_input hc, decompOk.of_input hd, hone⟩

/-- Pins and ports are no part of the invariant: it holds with any host's side that has the same inputs. -/
theorem inv_withPins {s : State} {h : HostSide} (hinv : Inv s) (hcin : h.cin = s.host.cin ∧ h.cinLen = s.host.cinLen)
    (hdin : h.din = s.host.din ∧ h.dinLen = s.host.dinLen) : Inv { s with host := h } := by
  obtain ⟨hostOk, _⟩ := (inv_iff s).1 hinv
  obtain ⟨hcin, hcinLen⟩ := hcin
  obtain ⟨hdin, hdinLen⟩ := hdin
  exact inv_withHost hinv
    ⟨hcin ▸ hostOk.cin, hdin ▸ hostOk.din, hcinLen ▸ hostOk.cinFits, hdinLen ▸ hostOk.dinFits⟩
    (fun _ => hcinLen) (fun _ => hdinLen)

/-- A change of the compress input that is not refused, to a space in canonical form, keeps the invariant (R204, R207). -/
theorem changeCompInput_inv {s t : State} {h : HostSide} (hinv : Inv s) (hn : s.changeCompInput h = .next t)
    (hcin : Memory.wf h.cin = true) (hdin : h.din = s.host.din ∧ h.dinLen = s.host.dinLen) : Inv t := by
  obtain ⟨hostOk, _⟩ := (inv_iff s).1 hinv
  obtain ⟨hdin, hdinLen⟩ := hdin
  obtain ⟨hb, hfit, rfl⟩ := changeCompInput_eq_next hn
  exact inv_withHost hinv ⟨hcin, hdin ▸ hostOk.din, hfit, hdinLen ▸ hostOk.dinFits⟩ (fun hc => absurd hc hb)
    (fun _ => hdinLen)

/-- A change of the decompress input that is not refused, to a space in canonical form, keeps the invariant (R204, R207). -/
theorem changeDecompInput_inv {s t : State} {h : HostSide} (hinv : Inv s) (hn : s.changeDecompInput h = .next t)
    (hdin : Memory.wf h.din = true) (hcin : h.cin = s.host.cin ∧ h.cinLen = s.host.cinLen) : Inv t := by
  obtain ⟨hostOk, _⟩ := (inv_iff s).1 hinv
  obtain ⟨hcin, hcinLen⟩ := hcin
  obtain ⟨hb, hfit, rfl⟩ := changeDecompInput_eq_next hn
  exact inv_withHost hinv ⟨hcin ▸ hostOk.cin, hdin, hcinLen ▸ hostOk.cinFits, hfit⟩ (fun _ => hcinLen)
    (fun hd => absurd hd hb)

/-- A drive of PCODEC's ports that is not refused and leaves the inputs keeps the invariant (R208). -/
theorem drivePorts_inv {s t : State} {h : HostSide} (hinv : Inv s) (hn : s.drivePorts h = .next t)
    (hcin : h.cin = s.host.cin ∧ h.cinLen = s.host.cinLen) (hdin : h.din = s.host.din ∧ h.dinLen = s.host.dinLen) : Inv t := by
  obtain ⟨_, rfl⟩ := drivePorts_eq_next hn
  exact inv_withPins hinv hcin hdin

/-- Settles O60: pins and ports are no part of the invariant, and an input changes only while its engine is not BUSY. -/
theorem hostMovesKeepInvariant : Obligations.HostMovesKeepInvariant := by
  intro m s t hinv h
  obtain ⟨hostOk, _⟩ := (inv_iff s).1 hinv
  cases m with
  | driveRst level => exact Host.Outcome.next.inj h ▸ inv_withPins hinv ⟨rfl, rfl⟩ ⟨rfl, rfl⟩
  | assertCompStart => exact Host.Outcome.next.inj h ▸ inv_withPins hinv ⟨rfl, rfl⟩ ⟨rfl, rfl⟩
  | assertDecompStart => exact Host.Outcome.next.inj h ▸ inv_withPins hinv ⟨rfl, rfl⟩ ⟨rfl, rfl⟩
  | writeCin a v => exact changeCompInput_inv hinv h (Memory.wf_write hostOk.cin a v) ⟨rfl, rfl⟩
  | setCinLen n => exact changeCompInput_inv hinv h hostOk.cin ⟨rfl, rfl⟩
  | writeDin a v => exact changeDecompInput_inv hinv h (Memory.wf_write hostOk.din a v) ⟨rfl, rfl⟩
  | setDinLen n => exact changeDecompInput_inv hinv h hostOk.din ⟨rfl, rfl⟩
  | driveEncode offset length => exact drivePorts_inv hinv h ⟨rfl, rfl⟩ ⟨rfl, rfl⟩
  | driveDecode bytes count => exact drivePorts_inv hinv h ⟨rfl, rfl⟩ ⟨rfl, rfl⟩

end Sys2Proof.Machine
end
